-- ==== Sys2Proof/Word.lean ====
section
/-! DEFINITION. The value types of the block: every value is unsigned (R13); a byte of the serial link and the
Sampled Byte have 8 bits (R22, R74), a hex digit has 4 (R75). -/

namespace Sys2Proof

/-- A byte of the serial link, of the Sampled Byte, or of one device cell. -/
abbrev Byte := BitVec 8

/-- One half of the Sampled Byte (R75). -/
abbrev Nibble := BitVec 4

end Sys2Proof
end

