-- ==== Sys2Proof/Config.lean ====
section
/-! DEFINITION. The configuration record of R8 (fixed before reset is released, changed by no rule) and the free
values the environment draws (`draw`, R14). -/

namespace Sys2Proof

/-- R3: the two distinct variants of the block. -/
inductive Variant where
  | full
  | reduced
deriving DecidableEq, Repr

/-- R17, R77: a Line is one discrete pin, (port identifier, index within port). The spec gives no alphabet for
port identifiers; they are numbers here. -/
structure Line where
  port  : Nat
  index : Nat
deriving DecidableEq, Repr

/-- R27: the direction half of a Line's mode. -/
inductive Direction where
  | input
  | output
deriving DecidableEq, Repr

/-- R27, R80 (f): the three electrical sub-configurations the document names; a model has no other (log 22). -/
inductive Econf where
  | pushPull
  | openDrain
  | floating
deriving DecidableEq, Repr

/-- R27: `MODE[l] = (m, e)`. -/
structure Mode where
  dir   : Direction
  econf : Econf
deriving DecidableEq, Repr

/-- R26: the level map `LV`, one latch bit for one state of each control line; the line's other state has the
complementary bit, so the two are always complementary. -/
structure Levels where
  oeRead     : Bool
  ceSelected : Bool
  weActive   : Bool
deriving DecidableEq, Repr

/-- R8: the configuration of one block. `PPA` follows from `variant` and `BLK` is 16 always. -/
structure Config where
  variant   : Variant
  /-- Address Bus width in lines. -/
  aw        : Nat
  /-- Data Bus width in lines. -/
  dw        : Nat
  /-- Tick Counter width in bits. -/
  cw        : Nat
  /-- `ADDR_BUS`, index 0 least significant. -/
  addrBus   : List Line
  /-- `DATA_BUS`, index 0 least significant. -/
  dataBus   : List Line
  oeLine    : Line
  ceLine    : Line
  weLine    : Line
  levels    : Levels
  /-- `ADDR_ECONF`, the sub-configuration of the Address Bus outputs. -/
  addrEconf : Econf
deriving DecidableEq, Repr

/-- R8: the observed configuration (19 address lines, 8 data lines, counter width 32, active-low control levels,
push-pull address outputs). DESIGN CHOICE (log 3, unsafe): the spec assigns no pins; the Address Bus stands on
port 0, the Data Bus on port 1 and the control lines on port 2. -/
def Config.observed : Config where
  variant   := .full
  aw        := 19
  dw        := 8
  cw        := 32
  addrBus   := (List.range 19).map (Line.mk 0)
  dataBus   := (List.range 8).map (Line.mk 1)
  oeLine    := ⟨2, 0⟩
  ceLine    := ⟨2, 1⟩
  weLine    := ⟨2, 2⟩
  levels    := { oeRead := false, ceSelected := false, weActive := false }
  addrEconf := .pushPull

/-- R14, R64: the n-th drawn bit (an undriven input, a latch after reset). A free value: it has no body. -/
opaque Config.drawBit : Nat → Bool

/-- R14, R39: the n-th drawn byte (the Sampled Byte after reset). A free value: it has no body. -/
opaque Config.drawByte : Nat → Byte

/-- R14, R39: the n-th drawn number (the Tick Counter after reset, cut to its width where it is used). A free
value: it has no body. -/
opaque Config.drawCounter : Nat → Nat

/-- R8: `T_TICK`, open; no rule reads it. -/
opaque Config.tickPeriod : Nat

/-- R8: `T_CHAR`, open; no rule reads it. -/
opaque Config.charTime : Nat

end Sys2Proof
end

