-- ==== Sys2Proof/Syntax.lean ====
section
/-! DEFINITION. The operations of the block, one constructor per row of the opcode table (53 rows), with the
operands their rules give them. -/

namespace Sys2Proof

/-- R2, R8: the three Bus Definitions, the only buses there are. -/
inductive BusId where
  | addr
  | data
  | ctrl
deriving DecidableEq, Repr

/-- R96: the control lines. -/
inductive CtrlLine where
  | oe
  | ce
  | we
deriving DecidableEq, Repr

/-- R26: the named states of the control lines. -/
inductive CtrlState where
  | oeRead
  | oeOff
  | ceSelected
  | ceDeselected
  | weInactive
  | weActive
deriving DecidableEq, Repr

/-- Every operation of the block and of its environment. The phase operations carry the operand `a = addr(TC)`
that their rule names (R75, R102 to R105). -/
inductive Instr where
  -- TC-FULL decode (R70, R72, R73)
  | seqTerm
  | seqP0NL (a : Nat)
  | seqP0 (a : Nat)
  | seqP1 (a : Nat)
  | seqP2 (a : Nat)
  | seqP3CR (a : Nat)
  | seqP3 (a : Nat)
  -- TC-REDUCED decode (R71)
  | rseqP0
  -- transmitted byte codes (R74)
  | txHex0
  | txHex1
  | txHex2
  | txHex3
  | txHex4
  | txHex5
  | txHex6
  | txHex7
  | txHex8
  | txHex9
  | txHexa
  | txHexb
  | txHexc
  | txHexd
  | txHexe
  | txHexf
  | txNl
  | txSp
  | txCr
  -- received byte code (R76)
  | rxStart
  -- Bus Abstraction (R90 to R96)
  | lineConfigure (l : Line) (m : Direction) (e : Econf)
  | lineSet (l : Line) (b : Bool)
  | lineGet (l : Line)
  | busConfigure (B : BusId) (m : Direction) (e : Econf)
  | busWrite (B : BusId) (v : Nat)
  | busRead (B : BusId)
  | ctrlSet (c : CtrlLine) (x : CtrlState)
  -- handler dispatch (R100)
  | seqTick
  -- Serial Relay (R125, R126)
  | relayTrySend (b : Byte)
  | relayRecv
  -- Bring-up Sequence (R136 to R146)
  | buClocks
  | buCfgAddr
  | buCfgData
  | buCtrlLevels
  | buCfgCtrl
  | buCeAssert
  | buTcInit
  | buSerialCfg
  | buWaitStart
  | buArm
  | buHalt
  -- environment (R156, R128, R129, R180)
  | timerTick
  | txdDrain
  | rxsSend (b : Byte)
  | rst
deriving DecidableEq, Repr

end Sys2Proof
end

