-- ==== Sys2Proof/WellFormed.lean ====
section
/-! DEFINITION. Which operand values the rules admit (R75, R102 to R105, R50 (b), R96). An operation without a
check has no operand, or one whose every value is admitted (a bit, a byte, a mode, a bus, a bus value of any
width, R94). -/

namespace Sys2Proof

/-- R26: the control line a named state belongs to. -/
def CtrlState.owner : CtrlState → CtrlLine
  | .oeRead | .oeOff => .oe
  | .ceSelected | .ceDeselected => .ce
  | .weInactive | .weActive => .we

/-- R8, R77: `CTRL_BUS = [OE_LINE, CE_LINE, WE_LINE]`. -/
def Config.ctrlBus (c : Config) : List Line := [c.oeLine, c.ceLine, c.weLine]

/-- R25, R50 (b): the Line space, every Line of the three Bus Definitions. -/
def Config.allLines (c : Config) : List Line := c.addrBus ++ c.dataBus ++ c.ctrlBus

/-- The operands an operation admits in a configuration. A phase operation's address is below `2^AW`; the rows
`SEQ.P0.NL` and `SEQ.P3.CR` take the block-first and the block-last addresses, the rows `SEQ.P0` and `SEQ.P3` the
others (R73: the row of higher priority is taken first). -/
def wellFormed (cfg : Config) : Instr → Bool
  | .seqP0NL a => decide (a < 2 ^ cfg.aw) && decide (a % 16 = 0)
  | .seqP0 a => decide (a < 2 ^ cfg.aw) && !decide (a % 16 = 0)
  | .seqP1 a => decide (a < 2 ^ cfg.aw)
  | .seqP2 a => decide (a < 2 ^ cfg.aw)
  | .seqP3CR a => decide (a < 2 ^ cfg.aw) && decide (a % 16 = 15)
  | .seqP3 a => decide (a < 2 ^ cfg.aw) && !decide (a % 16 = 15)
  | .lineConfigure l _ _ => decide (l ∈ cfg.allLines)
  | .lineSet l _ => decide (l ∈ cfg.allLines)
  | .lineGet l => decide (l ∈ cfg.allLines)
  | .ctrlSet c x => decide (x.owner = c)
  | .seqTerm | .rseqP0 => true
  | .txHex0 | .txHex1 | .txHex2 | .txHex3 | .txHex4 | .txHex5 | .txHex6 | .txHex7 => true
  | .txHex8 | .txHex9 | .txHexa | .txHexb | .txHexc | .txHexd | .txHexe | .txHexf => true
  | .txNl | .txSp | .txCr | .rxStart => true
  | .busConfigure _ _ _ | .busWrite _ _ | .busRead _ => true
  | .seqTick | .relayTrySend _ | .relayRecv => true
  | .buClocks | .buCfgAddr | .buCfgData | .buCtrlLevels | .buCfgCtrl | .buCeAssert => true
  | .buTcInit | .buSerialCfg | .buWaitStart | .buArm | .buHalt => true
  | .timerTick | .txdDrain | .rxsSend _ | .rst => true

end Sys2Proof
end

