-- ==== Sys2Proof/Decode.lean ====
section
/-! DEFINITION. The four places where the block decodes a number (R70 to R76, R135): the Tick Counter in the format
of the variant, the codes of the bytes on the serial link, and the main-flow step; then the encoder, written from
the same tables. A format is known from WHERE the number stands (TC, the relay, RXQ, MS), not from its bits. -/

namespace Sys2Proof

/-- The formats of the opcode table that have a bit encoding (R70, R71, R74, R76, R135). -/
inductive Format where
  | tcFull
  | tcReduced
  | txByte
  | rxByte
  | mainStep
deriving DecidableEq, Repr

/-- Why a number of a format is not an operation. -/
inductive DecodeError where
  /-- R20: a counter value of more than `CW` bits does not exist. -/
  | counterTooWide (w : Nat)
  /-- R74: not one of the 19 bytes the block sends. -/
  | notSent (w : Nat)
  /-- R76 `RX.IGNORED`: a received value that is not the start signal. -/
  | ignored (w : Nat)
  /-- R31: `MS` has the values 0 to 10 only. -/
  | noSuchStep (w : Nat)
deriving DecidableEq, Repr

/-- R70, R72, R73: the decode of a `TC-FULL` counter value, rows in priority order (terminal first, then the two
sub-rows, then the phases). -/
def decodeTcFull (cfg : Config) (w : Nat) : Instr :=
  let a := w / 4
  if a = 2 ^ cfg.aw then .seqTerm
  else match w % 4 with
    | 0 => if a % 16 = 0 then .seqP0NL a else .seqP0 a
    | 1 => .seqP1 a
    | 2 => .seqP2 a
    | _ => if a % 16 = 15 then .seqP3CR a else .seqP3 a

/-- R81: `VARIANT` selects the counter format; R71: every `TC-REDUCED` value is `RSEQ.P0`. -/
def decodeTick (cfg : Config) (w : Nat) : Instr :=
  match cfg.variant with
  | .full => decodeTcFull cfg w
  | .reduced => .rseqP0

/-- R74: the transmitted byte codes. -/
def txTable : List (Nat × Instr) :=
  [(0x30, .txHex0), (0x31, .txHex1), (0x32, .txHex2), (0x33, .txHex3), (0x34, .txHex4), (0x35, .txHex5),
   (0x36, .txHex6), (0x37, .txHex7), (0x38, .txHex8), (0x39, .txHex9), (0x61, .txHexa), (0x62, .txHexb),
   (0x63, .txHexc), (0x64, .txHexd), (0x65, .txHexe), (0x66, .txHexf), (0x0A, .txNl), (0x20, .txSp), (0x0D, .txCr)]

/-- R74: the operation a transmitted byte stands for. -/
def decodeTx (w : Nat) : Option Instr := (txTable.find? fun r => r.1 == w).map Prod.snd

/-- R76: the one received value with a meaning. -/
def decodeRx (w : Nat) : Option Instr := if w = 0x0D then some .rxStart else none

/-- R135: the steps of the Bring-up Sequence in the order of `MS`. -/
def mainSteps : List Instr :=
  [.buClocks, .buCfgAddr, .buCfgData, .buCtrlLevels, .buCfgCtrl, .buCeAssert, .buTcInit, .buSerialCfg,
   .buWaitStart, .buArm, .buHalt]

/-- R31, R135: the step that a value of `MS` selects. -/
def decodeMs (w : Nat) : Option Instr := mainSteps[w]?

/-- The decoder: total on every number of every format, rejecting by name. -/
def decode (cfg : Config) (f : Format) (w : Nat) : Except DecodeError Instr :=
  match f with
  | .tcFull => if w < 2 ^ cfg.cw then .ok (decodeTcFull cfg w) else .error (.counterTooWide w)
  | .tcReduced => if w < 2 ^ cfg.cw then .ok .rseqP0 else .error (.counterTooWide w)
  | .txByte => match decodeTx w with
    | some i => .ok i
    | none => .error (.notSent w)
  | .rxByte => match decodeRx w with
    | some i => .ok i
    | none => .error (.ignored w)
  | .mainStep => match decodeMs w with
    | some i => .ok i
    | none => .error (.noSuchStep w)

/-- The encoder: the format and number of an operation that has a bit encoding; the operations invoked by name
(R82) have none. `RSEQ.P0` is selected by every counter value (R71); its encoding is the first one, 0. -/
def encode (cfg : Config) : Instr → Option (Format × Nat)
  | .seqTerm => some (.tcFull, 4 * 2 ^ cfg.aw)
  | .seqP0NL a => some (.tcFull, 4 * a)
  | .seqP0 a => some (.tcFull, 4 * a)
  | .seqP1 a => some (.tcFull, 4 * a + 1)
  | .seqP2 a => some (.tcFull, 4 * a + 2)
  | .seqP3CR a => some (.tcFull, 4 * a + 3)
  | .seqP3 a => some (.tcFull, 4 * a + 3)
  | .rseqP0 => some (.tcReduced, 0)
  | .txHex0 => some (.txByte, 0b00110000)
  | .txHex1 => some (.txByte, 0b00110001)
  | .txHex2 => some (.txByte, 0b00110010)
  | .txHex3 => some (.txByte, 0b00110011)
  | .txHex4 => some (.txByte, 0b00110100)
  | .txHex5 => some (.txByte, 0b00110101)
  | .txHex6 => some (.txByte, 0b00110110)
  | .txHex7 => some (.txByte, 0b00110111)
  | .txHex8 => some (.txByte, 0b00111000)
  | .txHex9 => some (.txByte, 0b00111001)
  | .txHexa => some (.txByte, 0b01100001)
  | .txHexb => some (.txByte, 0b01100010)
  | .txHexc => some (.txByte, 0b01100011)
  | .txHexd => some (.txByte, 0b01100100)
  | .txHexe => some (.txByte, 0b01100101)
  | .txHexf => some (.txByte, 0b01100110)
  | .txNl => some (.txByte, 0b00001010)
  | .txSp => some (.txByte, 0b00100000)
  | .txCr => some (.txByte, 0b00001101)
  | .rxStart => some (.rxByte, 0b00001101)
  | .buClocks => some (.mainStep, 0b0000)
  | .buCfgAddr => some (.mainStep, 0b0001)
  | .buCfgData => some (.mainStep, 0b0010)
  | .buCtrlLevels => some (.mainStep, 0b0011)
  | .buCfgCtrl => some (.mainStep, 0b0100)
  | .buCeAssert => some (.mainStep, 0b0101)
  | .buTcInit => some (.mainStep, 0b0110)
  | .buSerialCfg => some (.mainStep, 0b0111)
  | .buWaitStart => some (.mainStep, 0b1000)
  | .buArm => some (.mainStep, 0b1001)
  | .buHalt => some (.mainStep, 0b1010)
  | .lineConfigure _ _ _ | .lineSet _ _ | .lineGet _ => none
  | .busConfigure _ _ _ | .busWrite _ _ | .busRead _ | .ctrlSet _ _ => none
  | .seqTick | .relayTrySend _ | .relayRecv => none
  | .timerTick | .txdDrain | .rxsSend _ | .rst => none

/-- The operation read from a table row's bits, in the observed configuration. The bits alone do not say the
format (log 10): 4 bits are a main-flow step, 8 bits are a byte code of the serial link where they are one of
the 19 and the low byte of a counter otherwise, anything wider is a counter value. -/
def decodeTableWord (nbits w : Nat) : Option Instr :=
  let tc := (decode .observed .tcFull w).toOption
  if nbits = 4 then (decode .observed .mainStep w).toOption
  else if nbits = 8 then
    match (decode .observed .txByte w).toOption with
    | some i => some i
    | none => tc
  else tc

end Sys2Proof
end

