-- ==== Sys2Proof/Machine/State.lean ====
section
/-! DEFINITION. The state of the block and of its environment as seen through the interface (R20 to R39), the
reasons a step can stop, and the state after reset. -/

namespace Sys2Proof.Machine

/-- One entry of the Line table: `MODE[l]` and `LATCH[l]` of one Line (R25, R27). -/
structure LineCell where
  line  : Line
  mode  : Mode
  latch : Bool
deriving DecidableEq, Repr

/-- R82: the events of a stimulus trace, one per move of an agent. -/
inductive Stimulus where
  /-- `MAIN`: one step of the main flow. -/
  | main
  /-- `TICK`: one serviced tick. -/
  | tick
  /-- `DRAIN`: the transmitter empties the holding register. -/
  | drain
  /-- `RX b`: the operator sends a byte. -/
  | rx (b : Byte)
  /-- `RST`: reset. -/
  | rst
deriving DecidableEq, Repr

/-- The value a value-returning operation returned when it was executed by name (log 8). -/
inductive OpResult where
  | none
  /-- LINE.GET (R92). -/
  | bit (b : Bool)
  /-- BUS.READ (R95). -/
  | value (v : Nat)
  /-- RELAY.TRY_SEND (R125). -/
  | accepted (a : Bool)
  /-- RELAY.RECV (R126). -/
  | byte (b : Byte)
deriving DecidableEq, Repr

/-- The state: the block's registers, its Lines, its control bits, the environment state behind the interface,
the configuration, and the model's own fields. -/
@[ext]
structure State where
  /-- R8: the configuration; no step changes it (log 3). -/
  cfg    : Config
  /-- R20: the Tick Counter, a number below `2^CW`. -/
  tc     : Nat
  /-- R22: the Sampled Byte. -/
  sb     : Byte
  /-- R25, R27: one latch and one mode for every Line of the three buses. -/
  lines  : List LineCell
  /-- R30: `ARMED`. -/
  armed  : Bool
  /-- R31: `MS`, the main-flow step. -/
  ms     : Fin 11
  /-- R34: the transmitter's holding register. -/
  hr     : Option Byte
  /-- R35: the bytes accepted by the relay since reset, in order. -/
  txlog  : List Byte
  /-- R36: the receiver's pending bytes, oldest first. -/
  rxq    : List Byte
  /-- R8, R64: `MEM`, the cells of the attached device that are not 0, by rising cell address (log 7). -/
  mem    : List Host.Cell
  /-- MODEL (log 1): the pending stimulus trace, next event first. -/
  stim   : List Stimulus
  /-- MODEL (log 6): how many values the environment has drawn so far. -/
  draws  : Nat
  /-- MODEL (log 8): what the last operation executed by name returned. -/
  result : OpResult
deriving DecidableEq, Repr

/-- Why the machine stops with a fault. -/
inductive Fault where
  /-- Raised by LINE.CONFIGURE, LINE.SET, LINE.GET and every bus operation that reaches a Line outside the Line
  space (R50 (b): such a Line does not exist for the block). Safe: the model stops (log 13). -/
  | noSuchLine (l : Line)
deriving DecidableEq, Repr

/-- Why the machine refuses to go on. -/
inductive Refusal where
  /-- Raised by `exec` for an operation that has no meaning yet. Safe. -/
  | notModelled (mnemonic : String)
  /-- Raised by `step` when the configuration breaks R9 ("is refused by a model"). Safe (log 12). -/
  | misconfigured
  /-- Raised by SEQ.TICK when `addr(TC) > 2^AW` (R80 (a), D20: "a model should refuse"). Safe (log 12). -/
  | counterBeyondTerminal (tc : Nat)
  /-- Raised by LINE.GET, and so by BUS.READ, on a Line in an output mode (R92, D24: "a model refuses the call").
  Safe (log 12). -/
  | getOnOutput (l : Line)
  /-- Raised by CTRL.SET when the state is not one of the two states of that line (R96). Safe (log 12). -/
  | notAStateOf (c : CtrlLine) (x : CtrlState)
deriving DecidableEq, Repr

/-- What an operation answers. -/
abbrev Outcome (α : Type) := Host.Outcome α Fault Refusal

/-- R39: after reset a Line is not driving. DESIGN CHOICE (log 4, unsafe): the latch, which the spec leaves
unspecified, is 0. -/
def freshCell (l : Line) : LineCell := { line := l, mode := ⟨.input, .floating⟩, latch := false }

/-- R39: the state after reset. The Tick Counter, the Sampled Byte and the latches are unspecified there; DESIGN
CHOICE (log 4, unsafe): they are 0. The configuration is the observed one (log 3), no cell of the device is listed
(log 7), and no stimulus is pending (log 1). -/
def State.reset : State where
  cfg    := .observed
  tc     := 0
  sb     := 0
  lines  := Config.observed.allLines.map freshCell
  armed  := false
  ms     := 0
  hr     := none
  txlog  := []
  rxq    := []
  mem    := []
  stim   := []
  draws  := 0
  result := .none

end Sys2Proof.Machine
end

