-- ==== Sys2Proof/Machine/Flags.lean ====
section
/-! DEFINITION. The status flags, the interface signals and the derived predicates (R12, R21, R28, R29, R31, R36,
R162), all functions of State. The block has no arithmetic condition codes (R29, R114). -/

namespace Sys2Proof.Machine

/-- R70, R71: `PPA`, 4 phases per address in FULL and 1 in REDUCED (R8). -/
def ppa : Variant → Nat
  | .full => 4
  | .reduced => 1

/-- R21: `addr(TC) = TC div PPA`. -/
def addrOf (s : State) : Nat := s.tc / ppa s.cfg.variant

/-- R21: `phase(TC) = TC mod PPA`. -/
def phaseOf (s : State) : Nat := s.tc % ppa s.cfg.variant

/-- R28: `TERMINAL = (VARIANT = FULL) and (addr(TC) = 2^AW)`. -/
def terminal (s : State) : Bool := decide (s.cfg.variant = .full) && decide (addrOf s = 2 ^ s.cfg.aw)

/-- R29: `txe`, the holding register is empty. -/
def txe (s : State) : Bool := s.hr.isNone

/-- R36: `rx_valid`. -/
def rxValid (s : State) : Bool := !s.rxq.isEmpty

/-- R36: `rx_byte`, the oldest pending byte, if there is one. -/
def rxByte (s : State) : Option Byte := s.rxq.head?

/-- R12, R30: `irq_en` equals `ARMED`. -/
def irqEn (s : State) : Bool := s.armed

/-- R12, R31: `sleep`, the main flow is in the permanent low-power wait. -/
def sleep (s : State) : Bool := decide (s.ms = 10)

/-- The table entry of a Line. -/
def lineCell (s : State) (l : Line) : Option LineCell := s.lines.find? fun c => decide (c.line = l)

/-- R50 (b): the Line is one the block holds state for. -/
def hasLine (s : State) (l : Line) : Bool := (lineCell s l).isSome

/-- R27, R12: `MODE[l]`, visible as `pin_mode[l]`. -/
def modeOf (s : State) (l : Line) : Option Mode := (lineCell s l).map LineCell.mode

/-- R25, R12: `LATCH[l]`, visible as `pin_out[l]`. -/
def latchOf (s : State) (l : Line) : Option Bool := (lineCell s l).map LineCell.latch

/-- R31, R162: the lifecycle states. -/
inductive Lifecycle where
  | bringup
  | waitStart
  | arming
  | run
  | terminal
deriving DecidableEq, Repr

/-- R31, R162: `LS`, derived from `MS` and `TC`. Only the FULL variant waits at `MS = 8`; in the REDUCED variant
step 8 is skipped, so there `MS = 8` already is `LS_ARMING` (R147, log 28). -/
def lifecycle (s : State) : Lifecycle :=
  if s.ms.val ≤ 7 then .bringup
  else if s.ms.val = 8 ∧ s.cfg.variant = .full then .waitStart
  else if s.ms.val ≤ 9 then .arming
  else if terminal s then .terminal
  else .run

end Sys2Proof.Machine
end

