-- ==== Sys2Proof/Machine/Operands.lean ====
section
/-! DEFINITION. Operand assembly (R75), character codes (R74), the level map (R26), the buses (R8, R77), and the
constraints on the configuration (R9). -/

namespace Sys2Proof.Machine

/-- R26, R96: the latch bit `LV(x)` of a named control-line state. -/
def levelBit (cfg : Config) : CtrlState → Bool
  | .oeRead => cfg.levels.oeRead
  | .oeOff => !cfg.levels.oeRead
  | .ceSelected => cfg.levels.ceSelected
  | .ceDeselected => !cfg.levels.ceSelected
  | .weActive => cfg.levels.weActive
  | .weInactive => !cfg.levels.weActive

/-- R8: the Line of a control line. -/
def ctrlLineOf (cfg : Config) : CtrlLine → Line
  | .oe => cfg.oeLine
  | .ce => cfg.ceLine
  | .we => cfg.weLine

/-- R8: the ordered list of Lines of a bus, index 0 least significant. -/
def busLines (cfg : Config) : BusId → List Line
  | .addr => cfg.addrBus
  | .data => cfg.dataBus
  | .ctrl => cfg.ctrlBus

/-- R74: the ASCII code of the lowercase hex digit of a 4-bit value. -/
def hexChar (n : Nibble) : Byte :=
  if n.toNat ≤ 9 then BitVec.ofNat 8 (0x30 + n.toNat) else BitVec.ofNat 8 (0x61 + (n.toNat - 10))

/-- R75: `SB[7:4]`. -/
def highNibble (b : Byte) : Nibble := b.extractLsb' 4 4

/-- R75: `SB[3:0]`. -/
def lowNibble (b : Byte) : Nibble := b.extractLsb' 0 4

/-- R72, R75: a block-first address, low 4 bits all 0. -/
def blockFirst (a : Nat) : Bool := decide (a % 16 = 0)

/-- R72, R75: a block-last address, low 4 bits all 1. -/
def blockLast (a : Nat) : Bool := decide (a % 16 = 15)

/-- R74: the line feed of phase 0. -/
def codeNl : Byte := 0x0A

/-- R74: the space of phase 3. -/
def codeSp : Byte := 0x20

/-- R74, R76: the carriage return of phase 3, and the start signal. -/
def codeCr : Byte := 0x0D

/-- R75: the separator of phase 3. -/
def separator (a : Nat) : Byte := if blockLast a then codeCr else codeSp

/-- R9: the constraints on the parameters, items (a) to (e), and that the bus lists have their widths (R8). -/
def configLegal (cfg : Config) : Bool :=
  decide (4 ≤ cfg.aw) && decide (1 ≤ cfg.dw) && decide (cfg.dw ≤ 8) &&
  (match cfg.variant with
    | .full => decide (cfg.aw + 3 ≤ cfg.cw)
    | .reduced => decide (cfg.aw ≤ cfg.cw)) &&
  decide (cfg.addrBus.length = cfg.aw) && decide (cfg.dataBus.length = cfg.dw) &&
  decide cfg.allLines.Nodup

end Sys2Proof.Machine
end

