-- ==== Sys2Proof/Machine/Ops.lean ====
section
/-! DEFINITION. The shared operations: device memory (R8, R64), Lines (R90 to R92), buses (R93 to R95), the control
lines (R96), the relay (R125, R126), the counter (R20, R114), and entering and leaving the timer interrupt (R159,
R160). Every meaning of an operation is written over these. -/

namespace Sys2Proof.Machine

/-- Sequencing of operations that may stop. -/
def andThen {α β : Type} (o : Outcome α) (k : α → Outcome β) : Outcome β :=
  match o with
  | .next a => k a
  | .fault r => .fault r
  | .refused r => .refused r

/-! ### The device's cells -/

/-- What a cell that `mem` does not list reads as. DESIGN CHOICE (log 7, unsafe): 0. -/
def unlistedCell : Byte := 0

/-- The content of one cell of the device. -/
def memRead : List Host.Cell → Nat → Byte
  | [], _ => unlistedCell
  | (a, b) :: m, x => if a = x then b else memRead m x

/-- A device prepared from outside with one cell at a value (R6, R56: the block itself writes no cell). Keeps the
canonical form. -/
def memPlace : List Host.Cell → Nat → Byte → List Host.Cell
  | [], x, v => if v = unlistedCell then [] else [(x, v)]
  | (a, b) :: m, x, v =>
    if a < x then (a, b) :: memPlace m x v
    else if a = x then (if v = unlistedCell then m else (x, v) :: m)
    else if v = unlistedCell then (a, b) :: m else (x, v) :: (a, b) :: m

/-- The canonical form: addresses strictly rising from `lo`, and no entry equal to what an unlisted cell reads as. -/
def memCanonFrom (lo : Nat) : List Host.Cell → Bool
  | [] => true
  | (a, b) :: m => decide (lo ≤ a) && !decide (b = unlistedCell) && memCanonFrom (a + 1) m

/-- R50 (a): the device has the cells `0 .. 2^AW - 1`, each `DW` bits wide; and the list is in canonical form. -/
def memWf (cfg : Config) (m : List Host.Cell) : Bool :=
  memCanonFrom 0 m && m.all fun c => decide (c.1 < 2 ^ cfg.aw) && decide (c.2.toNat < 2 ^ cfg.dw)

/-! ### Lines -/

/-- R90: `MODE[l] <- (m, e)`; the latch keeps its value. -/
def configureLine (l : Line) (md : Mode) (s : State) : State :=
  { s with lines := s.lines.map fun c => if c.line = l then { c with mode := md } else c }

/-- R91: `LATCH[l] <- b`, whatever the mode. -/
def setLine (l : Line) (b : Bool) (s : State) : State :=
  { s with lines := s.lines.map fun c => if c.line = l then { c with latch := b } else c }

/-- R50 (b): an operation on a Line the block does not hold faults. -/
def onLine {α : Type} (s : State) (l : Line) (k : Outcome α) : Outcome α :=
  if hasLine s l then k else .fault (.noSuchLine l)

/-- The first Line of a list that the block does not hold, if any. -/
def missingLine (s : State) : List Line → Option Line
  | [] => none
  | l :: ls => if hasLine s l then missingLine s ls else some l

/-- R50 (b), for a bus: every Line of it must be one the block holds. -/
def onBus {α : Type} (s : State) (ls : List Line) (k : Outcome α) : Outcome α :=
  match missingLine s ls with
  | none => k
  | some l => .fault (.noSuchLine l)

/-- R77: the integer held by the latches of a bus, bit `i + k` from the Line at index `k`. -/
def latchValueFrom (s : State) : Nat → List Line → Nat
  | _, [] => 0
  | i, l :: ls => (if latchOf s l = some true then 2 ^ i else 0) + latchValueFrom s (i + 1) ls

/-- R64: the value held in the latches of a bus. -/
def latchValue (s : State) (ls : List Line) : Nat := latchValueFrom s 0 ls

/-- The index of a Line in a bus. -/
def lineIndexFrom (l : Line) : Nat → List Line → Option Nat
  | _, [] => none
  | i, x :: xs => if x = l then some i else lineIndexFrom l (i + 1) xs

/-- R64: the device drives the Data Bus. -/
def driving (s : State) : Bool :=
  s.cfg.ctrlBus.all (fun l => decide (modeOf s l = some ⟨.output, .openDrain⟩)) &&
  decide (latchOf s s.cfg.ceLine = some (levelBit s.cfg .ceSelected)) &&
  decide (latchOf s s.cfg.oeLine = some (levelBit s.cfg .oeRead)) &&
  decide (latchOf s s.cfg.weLine = some (levelBit s.cfg .weInactive)) &&
  s.cfg.addrBus.all (fun l => decide (modeOf s l = some ⟨.output, s.cfg.addrEconf⟩))

/-- R14: one bit drawn by the environment, under no law (log 6). -/
def drawBit (s : State) : Bool × State := (Config.drawBit s.draws, { s with draws := s.draws + 1 })

/-- R64: `pin_in[l]`. On Line `i` of the Data Bus the device shows bit `i` of the addressed cell while it drives;
anywhere else the level is the environment's, a fresh draw (log 6, log 14). -/
def pinIn (l : Line) (s : State) : Bool × State :=
  match lineIndexFrom l 0 s.cfg.dataBus with
  | some i =>
    if driving s then ((memRead s.mem (latchValue s s.cfg.addrBus)).toNat.testBit i, s) else drawBit s
  | none => drawBit s

/-- R92: `LINE.GET(l)`; refused on a Line in an output mode (D24). -/
def getLine (l : Line) (s : State) : Outcome (Bool × State) :=
  match modeOf s l with
  | none => .fault (.noSuchLine l)
  | some md => if md.dir = .output then .refused (.getOnOutput l) else .next (pinIn l s)

/-! ### Buses -/

/-- R93: every Line of the bus, in list order. -/
def configureBus (md : Mode) : List Line → State → State
  | [], s => s
  | l :: ls, s => configureBus md ls (configureLine l md s)

/-- R94: bit `i + k` of `v` to the Line at index `k`, least significant first. -/
def writeBusFrom (v : Nat) : Nat → List Line → State → State
  | _, [], s => s
  | i, l :: ls, s => writeBusFrom v (i + 1) ls (setLine l (v.testBit i) s)

/-- R94: `BUS.WRITE(B, v)`; bits of `v` at and above the bus width are ignored. -/
def writeBus (ls : List Line) (v : Nat) (s : State) : State := writeBusFrom v 0 ls s

/-- R95: the Lines are read one at a time, index 0 first, each 1 adding its power of two. -/
def readBusFrom : Nat → List Line → Nat → State → Outcome (Nat × State)
  | _, [], v, s => .next (v, s)
  | i, l :: ls, v, s => andThen (getLine l s) fun r => readBusFrom (i + 1) ls (if r.1 then v + 2 ^ i else v) r.2

/-- R95: `BUS.READ(B)`. -/
def readBus (ls : List Line) (s : State) : Outcome (Nat × State) := readBusFrom 0 ls 0 s

/-- R96: the control line of a named state gets that state's latch bit. -/
def driveCtrl (x : CtrlState) (s : State) : State :=
  setLine (ctrlLineOf s.cfg x.owner) (levelBit s.cfg x) s

/-! ### The relay -/

/-- R125: `RELAY.TRY_SEND(b)`, the test and the write as one action. -/
def trySend (b : Byte) (s : State) : Bool × State :=
  if txe s then (true, { s with hr := some b, txlog := s.txlog ++ [b] }) else (false, s)

/-- R108: offer a byte; go on if it is accepted, else `abort_tick`: what was done before stays done. -/
def offer (b : Byte) (s : State) (go : State → State) : State :=
  match trySend b s with
  | (true, s') => go s'
  | (false, s') => s'

/-- A byte offered by name: the relay's answer is the operation's result (log 8). -/
def sendByName (b : Byte) (s : State) : State :=
  let r := trySend b s
  { r.2 with result := .accepted r.1 }

/-- R126: the oldest pending byte, consumed; none while no byte is pending. -/
def recv (s : State) : Option (Byte × State) :=
  match s.rxq with
  | [] => none
  | b :: q => some (b, { s with rxq := q })

/-! ### The counter and the main-flow step -/

/-- R20, R114 (a): `TC <- TC + 1` on the `CW`-bit counter. -/
def advance (s : State) : State := { s with tc := (s.tc + 1) % 2 ^ s.cfg.cw }

/-- R31: `MS <- n`. -/
def goTo (n : Fin 11) (s : State) : State := { s with ms := n }

/-! ### The timer interrupt -/

/-- R159: entry of the handler. The block saves no state: no vector, no cause, no saved counter, no mode. -/
def enterHandler (s : State) : State := s

/-- R160: return from the handler. Nothing is restored, because nothing was saved. -/
def leaveHandler (o : Outcome State) : Outcome State := o

/-! ### Reset -/

/-- R39: the Lines after the reset event, not driving, each latch a draw. -/
def resetLines (n : Nat) : List LineCell → List LineCell
  | [] => []
  | c :: cs => { c with mode := ⟨.input, .floating⟩, latch := Config.drawBit n } :: resetLines (n + 1) cs

/-- R180, R39: the whole-device reset. TC, SB and the latches become free values (log 5); the configuration, the
device's cells and the events still to come are not state of the block and stay (log 27). -/
def hardReset (s : State) : State :=
  { s with
    tc     := Config.drawCounter s.draws % 2 ^ s.cfg.cw
    sb     := Config.drawByte s.draws
    lines  := resetLines s.draws s.lines
    armed  := false
    ms     := 0
    hr     := none
    txlog  := []
    rxq    := []
    draws  := s.draws + s.lines.length + 1
    result := .none }

end Sys2Proof.Machine
end

