-- ==== Sys2Proof/Machine/Bringup.lean ====
section
/-! DEFINITION. The Bring-up Sequence (R135 to R148). A step the REDUCED variant skips advances `MS` and has no
other effect (R135, R147). -/

namespace Sys2Proof.Machine

/-- R135, R147: a step that only the FULL variant performs. -/
def fullOnly (s : State) (full reduced : State) : State :=
  match s.cfg.variant with
  | .full => full
  | .reduced => reduced

/-- BU.CLOCKS (R136): the platform's clocks; no state of the block changes except `MS` (log 25). -/
def execBuClocks (s : State) : Outcome State := .next (goTo 1 s)

/-- BU.CFG_ADDR (R137). -/
def execBuCfgAddr (s : State) : Outcome State :=
  .next (goTo 2 (configureBus ⟨.output, s.cfg.addrEconf⟩ s.cfg.addrBus s))

/-- BU.CFG_DATA (R138). -/
def execBuCfgData (s : State) : Outcome State :=
  .next (goTo 3 (configureBus ⟨.input, .floating⟩ s.cfg.dataBus s))

/-- BU.CTRL_LEVELS (R139): the inactive levels, in the order of the control bus. -/
def execBuCtrlLevels (s : State) : Outcome State :=
  .next (goTo 4 (driveCtrl .weInactive (driveCtrl .ceDeselected (driveCtrl .oeOff s))))

/-- BU.CFG_CTRL (R140). -/
def execBuCfgCtrl (s : State) : Outcome State :=
  .next (goTo 5 (configureBus ⟨.output, .openDrain⟩ s.cfg.ctrlBus s))

/-- BU.CE_ASSERT (R141), FULL only. -/
def execBuCeAssert (s : State) : Outcome State :=
  .next (goTo 6 (fullOnly s (driveCtrl .ceSelected s) s))

/-- BU.TC_INIT (R142). -/
def execBuTcInit (s : State) : Outcome State := .next (goTo 7 { s with tc := 0 })

/-- BU.SERIAL_CFG (R143): the platform's serial line configuration; no state of the block changes except `MS`, in
either variant (log 25). -/
def execBuSerialCfg (s : State) : Outcome State := .next (goTo 8 s)

/-- R144 for the FULL variant: one received byte is consumed; the start byte goes on, any other waits again; while no
byte is pending the main flow waits (log 11). -/
def waitStart (s : State) : State :=
  match recv s with
  | none => s
  | some (b, s') => if b = codeCr then goTo 9 s' else goTo 8 s'

/-- BU.WAIT_START (R144), FULL only. -/
def execBuWaitStart (s : State) : Outcome State := .next (fullOnly s (waitStart s) (goTo 9 s))

/-- BU.ARM (R145). -/
def execBuArm (s : State) : Outcome State := .next (goTo 10 { s with armed := true })

/-- BU.HALT (R146): the permanent low-power wait, in which the main flow has no further effect (log 11). -/
def execBuHalt (s : State) : Outcome State := .next s

end Sys2Proof.Machine
end

