-- ==== Sys2Proof/Machine/Bus.lean ====
section
/-! DEFINITION. The Bus Abstraction: LINE.CONFIGURE, LINE.SET, LINE.GET, BUS.CONFIGURE, BUS.WRITE, BUS.READ,
CTRL.SET (R90 to R98). Executed by name, a value-returning operation leaves its value in `result` (log 8). -/

namespace Sys2Proof.Machine

/-- LINE.CONFIGURE (R90). -/
def execLineConfigure (l : Line) (m : Direction) (e : Econf) (s : State) : Outcome State :=
  onLine s l (.next (configureLine l ⟨m, e⟩ s))

/-- LINE.SET (R91). -/
def execLineSet (l : Line) (b : Bool) (s : State) : Outcome State :=
  onLine s l (.next (setLine l b s))

/-- LINE.GET (R92). -/
def execLineGet (l : Line) (s : State) : Outcome State :=
  andThen (getLine l s) fun r => .next { r.2 with result := .bit r.1 }

/-- BUS.CONFIGURE (R93). -/
def execBusConfigure (B : BusId) (m : Direction) (e : Econf) (s : State) : Outcome State :=
  onBus s (busLines s.cfg B) (.next (configureBus ⟨m, e⟩ (busLines s.cfg B) s))

/-- BUS.WRITE (R94). -/
def execBusWrite (B : BusId) (v : Nat) (s : State) : Outcome State :=
  onBus s (busLines s.cfg B) (.next (writeBus (busLines s.cfg B) v s))

/-- BUS.READ (R95). -/
def execBusRead (B : BusId) (s : State) : Outcome State :=
  andThen (readBus (busLines s.cfg B) s) fun r => .next { r.2 with result := .value r.1 }

/-- CTRL.SET (R96); `x` must be one of the two states of `c`. -/
def execCtrlSet (c : CtrlLine) (x : CtrlState) (s : State) : Outcome State :=
  if x.owner = c then onLine s (ctrlLineOf s.cfg c) (.next (driveCtrl x s)) else .refused (.notAStateOf c x)

end Sys2Proof.Machine
end

