-- ==== Sys2Proof/Machine/Sequencer.lean ====
section
/-! DEFINITION. The Phase Sequencer: FULL variant (R100 to R108) and REDUCED variant (R120, R121). -/

namespace Sys2Proof.Machine

/-- SEQ.TERM (R101): the inert tick. -/
def execSeqTerm (s : State) : Outcome State := .next s

/-- R102, statements (1) to (4); `nl` says whether the line separator is sent. -/
def phase0 (nl : Bool) (a : Nat) (s : State) : State :=
  let driven := writeBus s.cfg.addrBus a s
  if nl then offer codeNl driven fun s' => advance (driveCtrl .oeRead s')
  else advance (driveCtrl .oeRead driven)

/-- SEQ.P0.NL (R102, the block-first sub-case). -/
def execSeqP0NL (a : Nat) (s : State) : Outcome State := .next (phase0 true a s)

/-- SEQ.P0 (R102). -/
def execSeqP0 (a : Nat) (s : State) : Outcome State := .next (phase0 (blockFirst a) a s)

/-- R103, statements (2) to (4), after the sample. -/
def phase1Emit (s : State) : State :=
  offer (hexChar (highNibble s.sb)) (driveCtrl .oeOff s) advance

/-- SEQ.P1 (R103): the sample, then output-enable off, then the high nibble. The address is not used. -/
def execSeqP1 (_a : Nat) (s : State) : Outcome State :=
  andThen (readBus s.cfg.dataBus s) fun r => .next (phase1Emit { r.2 with sb := BitVec.ofNat 8 r.1 })

/-- SEQ.P2 (R104): the low nibble. The address is not used. -/
def execSeqP2 (_a : Nat) (s : State) : Outcome State :=
  .next (offer (hexChar (lowNibble s.sb)) s advance)

/-- SEQ.P3.CR (R105, the block-last sub-case). -/
def execSeqP3CR (_a : Nat) (s : State) : Outcome State := .next (offer codeCr s advance)

/-- SEQ.P3 (R105): the separator. -/
def execSeqP3 (a : Nat) (s : State) : Outcome State := .next (offer (separator a) s advance)

/-- R100 after the enabling condition: the terminal check, then the dispatch on the phase (R73: the sub-rows are
taken before their parents). A start value beyond the terminal value is refused (R80 (a), D20). -/
def dispatchTick (s : State) : Outcome State :=
  let a := s.tc / 4
  if 2 ^ s.cfg.aw < a then .refused (.counterBeyondTerminal s.tc)
  else if a = 2 ^ s.cfg.aw then execSeqTerm s
  else match s.tc % 4 with
    | 0 => if blockFirst a then execSeqP0NL a s else execSeqP0 a s
    | 1 => execSeqP1 a s
    | 2 => execSeqP2 a s
    | _ => if blockLast a then execSeqP3CR a s else execSeqP3 a s

/-- SEQ.TICK (R100): enabled while `ARMED = 1`; a tick that is not enabled has no effect (R12, log 11). -/
def execSeqTick (s : State) : Outcome State :=
  if s.armed then dispatchTick s else .next s

/-- RSEQ.P0 (R120): drive the counter, then increment, unconditionally; enabled while `ARMED = 1` (log 11). -/
def execRseqP0 (s : State) : Outcome State :=
  if s.armed then .next (advance (writeBus s.cfg.addrBus s.tc s)) else .next s

end Sys2Proof.Machine
end

