-- ==== Sys2Proof/Machine/Environment.lean ====
section
/-! DEFINITION. The environment steps: TIMER.TICK (R156), TXD.DRAIN (R128), RXS.SEND (R129), RST (R180). An event
that is not enabled has no effect (log 11). -/

namespace Sys2Proof.Machine

/-- TIMER.TICK (R156, R159, R160): one serviced tick runs one handler invocation of the configured variant. -/
def execTimerTick (s : State) : Outcome State :=
  if s.armed then
    match s.cfg.variant with
    | .full => leaveHandler (execSeqTick (enterHandler s))
    | .reduced => leaveHandler (execRseqP0 (enterHandler s))
  else .next s

/-- TXD.DRAIN (R128): the holding register empties. -/
def execTxdDrain (s : State) : Outcome State := .next { s with hr := none }

/-- RXS.SEND (R129): the operator's byte joins the queue. -/
def execRxsSend (b : Byte) (s : State) : Outcome State := .next { s with rxq := s.rxq ++ [b] }

/-- RST (R180). -/
def execRst (s : State) : Outcome State := .next (hardReset s)

end Sys2Proof.Machine
end

