-- ==== Sys2Proof/Machine/Serial.lean ====
section
/-! DEFINITION. The Serial Relay: RELAY.TRY_SEND, RELAY.RECV (R125 to R127), the transmitted byte codes (R74) and
the start signal (R76). A byte code executed by name is the relay being offered that code (log 9). -/

namespace Sys2Proof.Machine

/-- RELAY.TRY_SEND (R125). -/
def execRelayTrySend (b : Byte) (s : State) : Outcome State := .next (sendByName b s)

/-- RELAY.RECV (R126): while no byte is pending the main flow has no step, it waits (log 11). -/
def execRelayRecv (s : State) : Outcome State :=
  match recv s with
  | none => .next s
  | some (b, s') => .next { s' with result := .byte b }

/-- TX.HEX0 (R74), '0'. -/
def execTxHex0 (s : State) : Outcome State := .next (sendByName 0x30 s)

/-- TX.HEX1 (R74), '1'. -/
def execTxHex1 (s : State) : Outcome State := .next (sendByName 0x31 s)

/-- TX.HEX2 (R74), '2'. -/
def execTxHex2 (s : State) : Outcome State := .next (sendByName 0x32 s)

/-- TX.HEX3 (R74), '3'. -/
def execTxHex3 (s : State) : Outcome State := .next (sendByName 0x33 s)

/-- TX.HEX4 (R74), '4'. -/
def execTxHex4 (s : State) : Outcome State := .next (sendByName 0x34 s)

/-- TX.HEX5 (R74), '5'. -/
def execTxHex5 (s : State) : Outcome State := .next (sendByName 0x35 s)

/-- TX.HEX6 (R74), '6'. -/
def execTxHex6 (s : State) : Outcome State := .next (sendByName 0x36 s)

/-- TX.HEX7 (R74), '7'. -/
def execTxHex7 (s : State) : Outcome State := .next (sendByName 0x37 s)

/-- TX.HEX8 (R74), '8'. -/
def execTxHex8 (s : State) : Outcome State := .next (sendByName 0x38 s)

/-- TX.HEX9 (R74), '9'. -/
def execTxHex9 (s : State) : Outcome State := .next (sendByName 0x39 s)

/-- TX.HEXa (R74), 'a'. -/
def execTxHexa (s : State) : Outcome State := .next (sendByName 0x61 s)

/-- TX.HEXb (R74), 'b'. -/
def execTxHexb (s : State) : Outcome State := .next (sendByName 0x62 s)

/-- TX.HEXc (R74), 'c'. -/
def execTxHexc (s : State) : Outcome State := .next (sendByName 0x63 s)

/-- TX.HEXd (R74), 'd'. -/
def execTxHexd (s : State) : Outcome State := .next (sendByName 0x64 s)

/-- TX.HEXe (R74), 'e'. -/
def execTxHexe (s : State) : Outcome State := .next (sendByName 0x65 s)

/-- TX.HEXf (R74), 'f'. -/
def execTxHexf (s : State) : Outcome State := .next (sendByName 0x66 s)

/-- TX.NL (R74), line feed. -/
def execTxNl (s : State) : Outcome State := .next (sendByName codeNl s)

/-- TX.SP (R74), space. -/
def execTxSp (s : State) : Outcome State := .next (sendByName codeSp s)

/-- TX.CR (R74), carriage return. -/
def execTxCr (s : State) : Outcome State := .next (sendByName codeCr s)

/-- RX.START (R76): the start byte at the head of the receive queue is consumed by the main flow that waits for it
(`MS = 8`), which goes on to arm the timer (R144). A byte is looked at nowhere else (R129). -/
def execRxStart (s : State) : Outcome State :=
  match recv s with
  | none => .next s
  | some (b, s') => if s.ms = 8 ∧ b = codeCr then .next (goTo 9 s') else .next s

end Sys2Proof.Machine
end

