-- ==== Sys2Proof/Machine/Dispatch.lean ====
section
/-! DEFINITION. One arm per operation of the opcode table. -/

namespace Sys2Proof.Machine

/-- The meaning of each operation. -/
def exec (i : Instr) (s : State) : Host.Outcome State Fault Refusal :=
  match i with
  | .seqTerm => Sys2Proof.Machine.execSeqTerm s
  | .seqP0NL a => Sys2Proof.Machine.execSeqP0NL a s
  | .seqP0 a => Sys2Proof.Machine.execSeqP0 a s
  | .seqP1 a => Sys2Proof.Machine.execSeqP1 a s
  | .seqP2 a => Sys2Proof.Machine.execSeqP2 a s
  | .seqP3CR a => Sys2Proof.Machine.execSeqP3CR a s
  | .seqP3 a => Sys2Proof.Machine.execSeqP3 a s
  | .rseqP0 => Sys2Proof.Machine.execRseqP0 s
  | .txHex0 => Sys2Proof.Machine.execTxHex0 s
  | .txHex1 => Sys2Proof.Machine.execTxHex1 s
  | .txHex2 => Sys2Proof.Machine.execTxHex2 s
  | .txHex3 => Sys2Proof.Machine.execTxHex3 s
  | .txHex4 => Sys2Proof.Machine.execTxHex4 s
  | .txHex5 => Sys2Proof.Machine.execTxHex5 s
  | .txHex6 => Sys2Proof.Machine.execTxHex6 s
  | .txHex7 => Sys2Proof.Machine.execTxHex7 s
  | .txHex8 => Sys2Proof.Machine.execTxHex8 s
  | .txHex9 => Sys2Proof.Machine.execTxHex9 s
  | .txHexa => Sys2Proof.Machine.execTxHexa s
  | .txHexb => Sys2Proof.Machine.execTxHexb s
  | .txHexc => Sys2Proof.Machine.execTxHexc s
  | .txHexd => Sys2Proof.Machine.execTxHexd s
  | .txHexe => Sys2Proof.Machine.execTxHexe s
  | .txHexf => Sys2Proof.Machine.execTxHexf s
  | .txNl => Sys2Proof.Machine.execTxNl s
  | .txSp => Sys2Proof.Machine.execTxSp s
  | .txCr => Sys2Proof.Machine.execTxCr s
  | .rxStart => Sys2Proof.Machine.execRxStart s
  | .lineConfigure l m e => Sys2Proof.Machine.execLineConfigure l m e s
  | .lineSet l b => Sys2Proof.Machine.execLineSet l b s
  | .lineGet l => Sys2Proof.Machine.execLineGet l s
  | .busConfigure B m e => Sys2Proof.Machine.execBusConfigure B m e s
  | .busWrite B v => Sys2Proof.Machine.execBusWrite B v s
  | .busRead B => Sys2Proof.Machine.execBusRead B s
  | .ctrlSet c x => Sys2Proof.Machine.execCtrlSet c x s
  | .seqTick => Sys2Proof.Machine.execSeqTick s
  | .relayTrySend b => Sys2Proof.Machine.execRelayTrySend b s
  | .relayRecv => Sys2Proof.Machine.execRelayRecv s
  | .buClocks => Sys2Proof.Machine.execBuClocks s
  | .buCfgAddr => Sys2Proof.Machine.execBuCfgAddr s
  | .buCfgData => Sys2Proof.Machine.execBuCfgData s
  | .buCtrlLevels => Sys2Proof.Machine.execBuCtrlLevels s
  | .buCfgCtrl => Sys2Proof.Machine.execBuCfgCtrl s
  | .buCeAssert => Sys2Proof.Machine.execBuCeAssert s
  | .buTcInit => Sys2Proof.Machine.execBuTcInit s
  | .buSerialCfg => Sys2Proof.Machine.execBuSerialCfg s
  | .buWaitStart => Sys2Proof.Machine.execBuWaitStart s
  | .buArm => Sys2Proof.Machine.execBuArm s
  | .buHalt => Sys2Proof.Machine.execBuHalt s
  | .timerTick => Sys2Proof.Machine.execTimerTick s
  | .txdDrain => Sys2Proof.Machine.execTxdDrain s
  | .rxsSend b => Sys2Proof.Machine.execRxsSend b s
  | .rst => Sys2Proof.Machine.execRst s

end Sys2Proof.Machine
end

