-- ==== Sys2Proof/Machine/Fetch.lean ====
section
/-! DEFINITION. Which operation the next step runs (R10, R31, R82, R135), and the state prepared so that a given
row of the opcode table is what runs next (log 2). -/

namespace Sys2Proof.Machine

/-- R135, R31: the main-flow step that `MS` selects. -/
def mainInstr (s : State) : Instr := (decodeMs s.ms.val).getD .buHalt

/-- Who moves where no event is pending (log 1): the transmitter while its register is full, so that a full register
is always drained in the end (R128, weak fairness; log 20), and the main flow otherwise. -/
def idleInstr (s : State) : Instr := if txe s then mainInstr s else .txdDrain

/-- The operation the next move selects: an event of the stimulus trace, or the idle move where no event is pending. -/
def fetch (s : State) : Instr :=
  match s.stim with
  | [] => idleInstr s
  | .main :: _ => mainInstr s
  | .tick :: _ => .timerTick
  | .drain :: _ => .txdDrain
  | .rx b :: _ => .rxsSend b
  | .rst :: _ => .rst

/-- The event that the step consumes. -/
def popStim (s : State) : State := { s with stim := s.stim.tail }

/-- A tick is next and the counter holds `w`: the handler of the FULL variant decodes it. -/
def prepareTick (w : Nat) (s : State) : State :=
  { s with cfg := { s.cfg with variant := .full }, tc := w, armed := true, ms := 10, stim := .tick :: s.stim }

/-- A byte code is what the next tick offers to a free relay: a hex digit by phase 2 of address 0 (R104), a
separator by phase 0 or 3 (R102, R105). -/
def prepareTx (w : Nat) (s : State) : State :=
  let s := { s with hr := none }
  if w = 0x0A then prepareTick 0 s
  else if w = 0x20 then prepareTick 3 s
  else if w = 0x0D then prepareTick 63 s
  else prepareTick 2 { s with sb := BitVec.ofNat 8 (if w < 0x3A then w - 0x30 else w - 0x57) }

/-- A received byte is what the waiting main flow consumes next (R144). -/
def prepareRx (w : Nat) (s : State) : State :=
  { s with cfg := { s.cfg with variant := .full }, ms := 8, rxq := BitVec.ofNat 8 w :: s.rxq, stim := .main :: s.stim }

/-- The main-flow step `w` is what moves next (R135). -/
def prepareMain (w : Nat) (s : State) : State :=
  { s with ms := Fin.ofNat 11 w, stim := .main :: s.stim }

/-- The preparation for a table row, by the place its format decodes from. -/
def prepare (i : Instr) (nbits w : Nat) (s : State) : State :=
  if nbits = 4 then prepareMain w s
  else match encode s.cfg i with
    | some (.txByte, c) => prepareTx c s
    | some (.rxByte, c) => prepareRx c s
    | some (.mainStep, c) => prepareMain c s
    | some (.tcFull, _) => prepareTick w s
    | some (.tcReduced, c) =>
      { s with cfg := { s.cfg with variant := .reduced }, tc := c, armed := true, ms := 10, stim := .tick :: s.stim }
    | none => s

end Sys2Proof.Machine
end

