-- ==== Sys2Proof/Machine/Step.lean ====
section
/-! DEFINITION. The step: one move of one agent. The pending stimulus says which agent moves; with none pending the
transmitter drains a full register, else the main flow moves (logs 1, 20). Fetching and preparing a fetch are in Machine/Fetch.lean. -/

namespace Sys2Proof.Machine

/-- One step: the operation that the next move selects runs, and its event is consumed. A configuration that breaks
R9 is refused (log 12). -/
def step (s : State) : Host.Outcome State Fault Refusal :=
  if configLegal s.cfg then exec (fetch s) (popStim s) else .refused .misconfigured

/-- The state in which the very next step runs the operation of a table row (log 2). -/
def State.withFetchWord (s : State) (nbits w : Nat) : State :=
  match decodeTableWord nbits w with
  | some i => prepare i nbits w s
  | none => s

end Sys2Proof.Machine
end

