-- ==== Sys2Proof/Machine/Conditions.lean ====
section
/-! DEFINITION. The four named conditions (R155) and when an operation meets one. No meaning reads them: each is
handled in line (R101, R108, R144) or refused by `step` (R9), none transfers control and none is recorded. -/

namespace Sys2Proof.Machine

/-- R155: the four named conditions; none has a code, none is recorded. -/
inductive Condition where
  | txBusy
  | terminal
  | badStart
  | misconfig
deriving DecidableEq, Repr

/-- R106: the phase operations that offer a byte to the relay. -/
def offersByte : Instr → Bool
  | .seqP0NL _ | .seqP1 _ | .seqP2 _ | .seqP3CR _ | .seqP3 _ => true
  | .seqP0 a => blockFirst a
  | _ => false

/-- R125, R74: the operations that are a `RELAY.TRY_SEND` by name (log 9). -/
def offersByName : Instr → Bool
  | .relayTrySend _ => true
  | .txHex0 | .txHex1 | .txHex2 | .txHex3 | .txHex4 | .txHex5 | .txHex6 | .txHex7 => true
  | .txHex8 | .txHex9 | .txHexa | .txHexb | .txHexc | .txHexd | .txHexe | .txHexf => true
  | .txNl | .txSp | .txCr => true
  | _ => false

/-- R100, R156: performing the operation runs an invocation of the FULL handler, which looks at the counter. -/
def runsDispatch (s : State) : Instr → Bool
  | .seqTick => s.armed
  | .timerTick => s.armed && decide (s.cfg.variant = .full)
  | _ => false

/-- R106, R158: performing the operation reaches a `RELAY.TRY_SEND`. An invocation does so where its phase offers a
byte, and never in the terminal condition, which is looked at first. -/
def reachesTrySend (s : State) (i : Instr) : Bool :=
  offersByName i || offersByte i ||
  (runsDispatch s i && decide (s.tc / 4 < 2 ^ s.cfg.aw) && offersByte (decodeTcFull s.cfg s.tc))

/-- R155: performing operation `i` in state `s` meets the condition. COND_TX_BUSY is `txe = 0` at a
`RELAY.TRY_SEND`; COND_TERMINAL is found by SEQ.TICK; COND_BAD_START is a byte other than the start byte taken by
BU.WAIT_START while the block waits for the start; COND_MISCONFIG no operation detects, it is a property of the
configuration alone. -/
def meets (s : State) (i : Instr) : Condition → Bool
  | .txBusy => reachesTrySend s i && !txe s
  | .terminal => runsDispatch s i && decide (s.tc / 4 = 2 ^ s.cfg.aw)
  | .badStart => decide (i = .buWaitStart) && decide (lifecycle s = .waitStart) &&
      (match rxByte s with
        | some b => !decide (b = codeCr)
        | none => false)
  | .misconfig => !configLegal s.cfg

end Sys2Proof.Machine
end

