-- ==== Sys2Proof/Safety.lean ====
section
/-! DEFINITION. What every run keeps: the shape of the state, the main flow and the counter, the serial output, and
the wires (R112, R148, R183, R185); and the observations a claim about a run speaks of (R35, R195). -/

namespace Sys2Proof.Machine

/-- R74: the 19 byte values the block sends. -/
def sentCodes : List Byte :=
  [0x30, 0x31, 0x32, 0x33, 0x34, 0x35, 0x36, 0x37, 0x38, 0x39, 0x61, 0x62, 0x63, 0x64, 0x65, 0x66,
   codeNl, codeSp, codeCr]

/-- R9, R25: the configuration is legal and the block holds one table entry for every Line of its buses. -/
def Wired (s : State) : Prop := configLegal s.cfg = true ∧ s.lines.map LineCell.line = s.cfg.allLines

/-- R27, R138: the Data Bus Lines are in an input mode. -/
def DataInputs (s : State) : Prop := ∀ l ∈ s.cfg.dataBus, ∃ md, modeOf s l = some md ∧ md.dir = .input

/-- R64, R148: the wiring of a device that is selected and not being written, so that only output-enable decides
whether it drives the Data Bus. -/
def Selected (s : State) : Prop :=
  (∀ l ∈ s.cfg.ctrlBus, modeOf s l = some ⟨.output, .openDrain⟩) ∧
  latchOf s s.cfg.ceLine = some (levelBit s.cfg .ceSelected) ∧
  latchOf s s.cfg.weLine = some (levelBit s.cfg .weInactive) ∧
  (∀ l ∈ s.cfg.addrBus, modeOf s l = some ⟨.output, s.cfg.addrEconf⟩)

/-- Every Line outside a list keeps its latch. -/
def OtherLatches (ls : List Line) (s t : State) : Prop := ∀ l, l ∉ ls → latchOf t l = latchOf s l

/-- Every Line keeps its mode. -/
def SameModes (s t : State) : Prop := ∀ l, modeOf t l = modeOf s l

/-- An operation executed `n` times in a row, stopping at the first stop. -/
def repeatOp (i : Instr) : Nat → State → Outcome State
  | 0, s => .next s
  | n + 1, s => andThen (exec i s) (repeatOp i n)

/-- Operations executed one after another, stopping at the first stop. -/
def runOps : List Instr → State → Outcome State
  | [], s => .next s
  | i :: is, s => andThen (exec i s) (runOps is)

/-- The machine run for `n` steps on its own pending events. -/
def runSteps : Nat → State → Outcome State
  | 0, s => .next s
  | n + 1, s => andThen (step s) (runSteps n)

/-- R38, R82: the machine run for `n` steps under an unending schedule, `σ k` being the event of step `k`. -/
def runUnder (σ : Nat → Stimulus) : Nat → State → Outcome State
  | 0, s => .next s
  | n + 1, s => andThen (runUnder σ n s) fun t => step { t with stim := [σ n] }

/-- R128, D14: the weak fairness of the transmitter along the run under a schedule: wherever the holding register is
full, it is empty later. -/
def FairRun (σ : Nat → Stimulus) (s : State) : Prop :=
  ∀ n t, runUnder σ n s = .next t → t.hr ≠ none → ∃ m u, n ≤ m ∧ runUnder σ m s = .next u ∧ u.hr = none

/-- The operations of one handler invocation (R100, R120). -/
def isHandlerOp : Instr → Bool
  | .seqTerm | .seqP0NL _ | .seqP0 _ | .seqP1 _ | .seqP2 _ | .seqP3CR _ | .seqP3 _ | .rseqP0 => true
  | .seqTick | .timerTick => true
  | _ => false

/-- The shape of the state: a legal configuration (R9), one table entry per Line in the order of the buses (R25),
a counter of `CW` bits (R20), and device cells that exist, in canonical form (R50). -/
structure StructInv (s : State) : Prop where
  legal   : configLegal s.cfg = true
  table   : s.lines.map LineCell.line = s.cfg.allLines
  counter : s.tc < 2 ^ s.cfg.cw
  cells   : memWf s.cfg s.mem = true

/-- The main flow and the counter: armed exactly at the permanent wait (R30, R145), the counter 0 from its
initialisation to arming (R142, R183) and never past the terminal value in the FULL variant (R107). -/
structure FlowInv (s : State) : Prop where
  armedAtHalt   : s.armed = true ↔ s.ms = 10
  zeroAtArming  : 7 ≤ s.ms.val → s.armed = false → s.tc = 0
  neverPastTerm : s.armed = true → s.cfg.variant = .full → s.tc ≤ 4 * 2 ^ s.cfg.aw

/-- The serial output: the held byte is the last one accepted (R125, R35), only the 19 codes are ever sent (R74),
nothing is sent before arming (R183), and nothing ever in the REDUCED variant (R121). -/
structure SerialInv (s : State) : Prop where
  heldIsLast    : ∀ b, s.hr = some b → s.txlog.getLast? = some b
  onlyCodes     : ∀ b ∈ s.txlog, b ∈ sentCodes
  silentUnarmed : s.armed = false → s.txlog = []
  silentReduced : s.cfg.variant = .reduced → s.txlog = []

/-- R112: what output-enable may show once bring-up has set it: off, except that it enables the device between a
successful phase 0 and the first attempt of phase 1. -/
def oeAsDecoded (s : State) : Prop :=
  latchOf s s.cfg.oeLine = some (levelBit s.cfg .oeOff) ∨
  (s.armed = true ∧ s.cfg.variant = .full ∧ s.tc % 4 = 1 ∧
    latchOf s s.cfg.oeLine = some (levelBit s.cfg .oeRead))

/-- R112: what the Address Bus shows while the FULL variant runs: the current address in phases 1 to 3; in phase 0
the previous address or, on a retry, the current one. -/
def addressAsDecoded (s : State) : Prop :=
  (s.tc % 4 ≠ 0 → latchValue s s.cfg.addrBus = s.tc / 4) ∧
  (s.tc % 4 = 0 → 0 < s.tc →
    latchValue s s.cfg.addrBus = s.tc / 4 - 1 ∨ latchValue s s.cfg.addrBus = s.tc / 4)

/-- The wires (R112, R137 to R141, R147, R148, R185): modes by main-flow step, write-enable never active once set,
chip-enable selected only in FULL from its step on, output-enable and the Address Bus as the counter says. -/
structure WiringInv (s : State) : Prop where
  dataFloating : ∀ l ∈ s.cfg.dataBus, modeOf s l = some ⟨.input, .floating⟩
  addrModes    : ∀ l ∈ s.cfg.addrBus,
    modeOf s l = some (if 2 ≤ s.ms.val then ⟨.output, s.cfg.addrEconf⟩ else ⟨.input, .floating⟩)
  ctrlModes    : ∀ l ∈ s.cfg.ctrlBus,
    modeOf s l = some (if 5 ≤ s.ms.val then ⟨.output, .openDrain⟩ else ⟨.input, .floating⟩)
  weInactive   : 4 ≤ s.ms.val → latchOf s s.cfg.weLine = some (levelBit s.cfg .weInactive)
  ceLevel      : 4 ≤ s.ms.val → latchOf s s.cfg.ceLine =
    some (levelBit s.cfg (if s.cfg.variant = .full ∧ 6 ≤ s.ms.val then .ceSelected else .ceDeselected))
  oeLevel      : 4 ≤ s.ms.val → oeAsDecoded s
  address      : s.armed = true → s.cfg.variant = .full → addressAsDecoded s

/-- What every step keeps. -/
structure BlockInv (s : State) : Prop where
  struct : StructInv s
  flow   : FlowInv s
  serial : SerialInv s
  wiring : WiringInv s

/-- R195: the end of a run of the FULL variant. -/
def runEnded (s : State) : Bool := terminal s && txe s

/-- R53, R110: what one address contributes to the output, with `v` its sample. -/
def cellText (a : Nat) (v : Byte) : List Byte :=
  (if blockFirst a then [codeNl] else []) ++ [hexChar (highNibble v), hexChar (lowNibble v), separator a]

/-- R83, R110: the text of the addresses below `n`, with `f` the samples. -/
def dumpText (f : Nat → Byte) : Nat → List Byte
  | 0 => []
  | n + 1 => dumpText f n ++ cellText n (f n)

/-- R110, R64: the sample a device cell gives, `DW` bits wide. -/
def cellSample (s : State) (a : Nat) : Byte := BitVec.ofNat 8 ((memRead s.mem a).toNat % 2 ^ s.cfg.dw)

end Sys2Proof.Machine
end

