-- ==== Sys2Proof/Certificates/Slice0/Obligations.lean ====
section
/-! DEFINITION. The statements for the provers. `{ s with … }` names what changes; every other field, the device's
cells and the configuration among them, is the one of `s`. A new Line table is described by what it answers: the
value a bus holds, each latch and each mode. -/

open Sys2Proof Sys2Proof.Machine

/-! ### Encodings -/

/-- Words written out from the tables of R70 to R76 and R135 (vectors V1, V5, V7, V13, V14) decode to what they
stand for, and two that stand for nothing are rejected by name. -/
def Obligations.SpecWordsDecode : Prop :=
  decode .observed .tcFull 0b111011 = .ok (.seqP3 14) ∧
  decode .observed .tcFull 0b111111 = .ok (.seqP3CR 15) ∧
  decode .observed .tcFull 0b1000000 = .ok (.seqP0NL 16) ∧
  decode .observed .tcFull 0x00169696 = .ok (.seqP2 0x5A5A5) ∧
  decode .observed .tcFull 0x00200000 = .ok .seqTerm ∧
  decode .observed .tcReduced 0x00080005 = .ok .rseqP0 ∧
  decode .observed .txByte 0b01100001 = .ok .txHexa ∧
  decode .observed .txByte 0b00001010 = .ok .txNl ∧
  decode .observed .rxByte 0b00001101 = .ok .rxStart ∧
  decode .observed .mainStep 0b1001 = .ok .buArm ∧
  decode .observed .rxByte 0b00001010 = .error (.ignored 0x0A) ∧
  decode .observed .mainStep 0b1011 = .error (.noSuchStep 11)

/-- Decoding an encoded well-formed operation gives it back, with every operand at every value the encoding admits;
the operations without an encoding are those invoked by name (R82). -/
def Obligations.DecodeOfEncodeIsIdentity : Prop :=
  ∀ (cfg : Config) (i : Instr), configLegal cfg = true → cfg.variant = .full → wellFormed cfg i = true →
    match encode cfg i with
    | some (f, w) => decode cfg f w = .ok i
    | none => i ∈ [Instr.seqTick, .relayRecv, .timerTick, .txdDrain, .rst] ∨ (∃ l m e, i = .lineConfigure l m e) ∨
        (∃ l b, i = .lineSet l b) ∨ (∃ l, i = .lineGet l) ∨ (∃ B m e, i = .busConfigure B m e) ∨
        (∃ B v, i = .busWrite B v) ∨ (∃ B, i = .busRead B) ∨ (∃ c x, i = .ctrlSet c x) ∨
        (∃ b, i = .relayTrySend b) ∨ (∃ b, i = .rxsSend b)

/-- Every counter value that a FULL run can hold has exactly one meaning: what it decodes to is well formed and
encodes back to that value. -/
def Obligations.CounterValuesHaveOneMeaning : Prop :=
  ∀ (cfg : Config) (w : Nat), configLegal cfg = true → cfg.variant = .full → w ≤ 4 * 2 ^ cfg.aw →
    wellFormed cfg (decodeTcFull cfg w) = true ∧ encode cfg (decodeTcFull cfg w) = some (.tcFull, w)

/-- The FULL decoder is the opcode table read as masks and matches, rows in priority order, for every legal `AW` and
`CW` and every counter value. -/
def Obligations.CounterDecodeFollowsTheMasks : Prop :=
  ∀ (cfg : Config) (w : Nat), configLegal cfg = true → cfg.variant = .full → w < 2 ^ cfg.cw →
    decodeTcFull cfg w =
      if w &&& (2 ^ cfg.cw - 4) = 2 ^ (cfg.aw + 2) then .seqTerm
      else if w &&& 0x3F = 0 then .seqP0NL (w / 4)
      else if w &&& 0x3F = 0x3F then .seqP3CR (w / 4)
      else if w &&& 3 = 0 then .seqP0 (w / 4)
      else if w &&& 3 = 1 then .seqP1 (w / 4)
      else if w &&& 3 = 2 then .seqP2 (w / 4)
      else .seqP3 (w / 4)

/-- R76: of all received values one has a meaning; every other one is ignored by name. -/
def Obligations.OnlyTheStartByteHasAMeaning : Prop :=
  ∀ (cfg : Config) (w : Nat),
    decode cfg .rxByte w = if w = 0x0D then .ok .rxStart else .error (.ignored w)

/-! ### The step -/

/-- A step runs the operation that the pending event selects, on the state without that event: the step that `MS`
decodes to where the main flow moves, the operation that `TC` decodes to where a tick is serviced while armed, and
the environment's own operation otherwise. The model's choices: that a queue of events selects the agent and is
consumed, and that with none pending the main flow moves where the holding register is empty (log 1, DESIGN CHOICE)
and the transmitter where it is full (log 20); that a tick while not armed does nothing (log 11). -/
def Obligations.StepRunsTheSelectedOperation : Prop :=
  ∀ (s : State), configLegal s.cfg = true →
    (∀ i, (s.stim = [] ∧ s.hr = none) ∨ s.stim.head? = some .main → decode s.cfg .mainStep s.ms.val = .ok i →
      step s = exec i (popStim s)) ∧
    (s.stim.head? = some .tick → s.armed = false → step s = .next (popStim s)) ∧
    (∀ i, s.stim.head? = some .tick → s.armed = true → s.cfg.variant = .full → s.tc / 4 ≤ 2 ^ s.cfg.aw →
      decode s.cfg .tcFull s.tc = .ok i → step s = exec i (popStim s)) ∧
    (∀ i, s.stim.head? = some .tick → s.armed = true → s.cfg.variant = .reduced →
      decode s.cfg .tcReduced s.tc = .ok i → step s = exec i (popStim s)) ∧
    ((s.stim = [] ∧ s.hr ≠ none) ∨ s.stim.head? = some .drain → step s = exec .txdDrain (popStim s)) ∧
    (∀ b, s.stim.head? = some (.rx b) → step s = exec (.rxsSend b) (popStim s)) ∧
    (s.stim.head? = some .rst → step s = exec .rst (popStim s))

/-- R9: a configuration that breaks a constraint is refused, whatever comes next. -/
def Obligations.IllegalConfigurationIsRefused : Prop :=
  ∀ (s : State), configLegal s.cfg = false → step s = .refused .misconfigured

/-- R80 (a), D20: a tick that finds a counter beyond the terminal value is refused. -/
def Obligations.CounterBeyondTerminalIsRefused : Prop :=
  ∀ (s : State), s.armed = true → 2 ^ s.cfg.aw < s.tc / 4 →
    exec .seqTick s = .refused (.counterBeyondTerminal s.tc) ∧
    (configLegal s.cfg = true → s.cfg.variant = .full → s.stim.head? = some .tick →
      step s = .refused (.counterBeyondTerminal s.tc))

/-! ### Bus Abstraction -/

/-- R90: LINE.CONFIGURE writes the mode of its Line and nothing else, every latch included; a second identical call
changes nothing. -/
def Obligations.LineConfigureWritesOneMode : Prop :=
  ∀ (s : State) (l : Line) (m : Direction) (e : Econf), hasLine s l = true →
    ∃ t, exec (.lineConfigure l m e) s = .next t ∧ modeOf t l = some ⟨m, e⟩ ∧
      (∀ k, k ≠ l → modeOf t k = modeOf s k) ∧ OtherLatches [] s t ∧ t = { s with lines := t.lines } ∧
      exec (.lineConfigure l m e) t = .next t

/-- R91: LINE.SET writes the latch of its Line, whatever the mode, and nothing else; a second identical call changes
nothing. -/
def Obligations.LineSetWritesOneLatch : Prop :=
  ∀ (s : State) (l : Line) (b : Bool), hasLine s l = true →
    ∃ t, exec (.lineSet l b) s = .next t ∧ latchOf t l = some b ∧ OtherLatches [l] s t ∧ SameModes s t ∧
      t = { s with lines := t.lines } ∧ exec (.lineSet l b) t = .next t

/-- R92, R64: LINE.GET on an input Line returns one bit and changes no state of the block; on a Line of the Data Bus
it is the bit of the addressed cell while the device drives. -/
def Obligations.LineGetReturnsThePin : Prop :=
  ∀ (s : State) (l : Line) (md : Mode), modeOf s l = some md → md.dir = .input →
    (∃ b k, exec (.lineGet l) s = .next { s with result := .bit b, draws := s.draws + k }) ∧
    (∀ i (hi : i < s.cfg.dataBus.length), s.cfg.dataBus.Nodup → l = s.cfg.dataBus[i] → driving s = true →
      exec (.lineGet l) s = .next
        { s with result := .bit ((memRead s.mem (latchValue s s.cfg.addrBus)).toNat.testBit i) })

/-- R92, D24: LINE.GET on a Line in an output mode is refused, and with it BUS.READ of a bus, or phase 1 on a Data
Bus, that has such a Line. -/
def Obligations.ReadingAnOutputIsRefused : Prop :=
  ∀ (s : State),
    (∀ (l : Line) (md : Mode), modeOf s l = some md → md.dir = .output →
      exec (.lineGet l) s = .refused (.getOnOutput l)) ∧
    (∀ (B : BusId) (l : Line) (md : Mode), Wired s → l ∈ busLines s.cfg B → modeOf s l = some md → md.dir = .output →
      ∃ k ∈ busLines s.cfg B, exec (.busRead B) s = .refused (.getOnOutput k) ∧
        (B = .data → ∀ a, exec (.seqP1 a) s = .refused (.getOnOutput k)))

/-- The model's choice (log 13): an operation on a Line that no Bus Definition names faults. -/
def Obligations.LinesOutsideTheBusesFault : Prop :=
  ∀ (s : State) (l : Line) (m : Direction) (e : Econf) (b : Bool), Wired s → l ∉ s.cfg.allLines →
    exec (.lineConfigure l m e) s = .fault (.noSuchLine l) ∧ exec (.lineSet l b) s = .fault (.noSuchLine l) ∧
    exec (.lineGet l) s = .fault (.noSuchLine l)

/-- R93: BUS.CONFIGURE gives every Line of the bus the mode, touches no latch and nothing else; a second identical
call changes nothing. -/
def Obligations.BusConfigureSetsEveryLine : Prop :=
  ∀ (s : State) (B : BusId) (m : Direction) (e : Econf), Wired s →
    ∃ t, exec (.busConfigure B m e) s = .next t ∧
      (∀ l, modeOf t l = if l ∈ busLines s.cfg B then some ⟨m, e⟩ else modeOf s l) ∧
      OtherLatches [] s t ∧ t = { s with lines := t.lines } ∧ exec (.busConfigure B m e) t = .next t

/-- R94: after BUS.WRITE the bus latches hold `v mod 2^W`, bit `i` in the Line at index `i`; nothing else changes; a
second identical call changes nothing. -/
def Obligations.BusWriteHoldsTheLowBits : Prop :=
  ∀ (s : State) (B : BusId) (v : Nat), Wired s →
    ∃ t, exec (.busWrite B v) s = .next t ∧
      latchValue t (busLines s.cfg B) = v % 2 ^ (busLines s.cfg B).length ∧
      (∀ i (hi : i < (busLines s.cfg B).length), latchOf t (busLines s.cfg B)[i] = some (v.testBit i)) ∧
      OtherLatches (busLines s.cfg B) s t ∧ SameModes s t ∧ t = { s with lines := t.lines } ∧
      exec (.busWrite B v) t = .next t

/-- R95: BUS.READ of a bus of input Lines returns a value below `2^W` and writes no state of the block. -/
def Obligations.BusReadStaysBelowTheWidth : Prop :=
  ∀ (s : State) (B : BusId),
    (∀ l ∈ busLines s.cfg B, ∃ md, modeOf s l = some md ∧ md.dir = .input) →
    ∃ v k, v < 2 ^ (busLines s.cfg B).length ∧
      exec (.busRead B) s = .next { s with result := .value v, draws := s.draws + k }

/-- R95, R64, R52: while the device drives, BUS.READ of the Data Bus returns the addressed cell, cut to the bus
width, and draws nothing. -/
def Obligations.BusReadReturnsTheCell : Prop :=
  ∀ (s : State), Wired s → DataInputs s → driving s = true →
    exec (.busRead .data) s = .next
      { s with result := .value ((memRead s.mem (latchValue s s.cfg.addrBus)).toNat % 2 ^ s.cfg.dw) }

/-- R96, R26: CTRL.SET gives the control line the latch bit of the named state and changes nothing else. -/
def Obligations.CtrlSetDrivesTheNamedLevel : Prop :=
  ∀ (s : State) (c : CtrlLine) (x : CtrlState), Wired s → x.owner = c →
    ∃ t, exec (.ctrlSet c x) s = .next t ∧ latchOf t (ctrlLineOf s.cfg c) = some (levelBit s.cfg x) ∧
      OtherLatches [ctrlLineOf s.cfg c] s t ∧ SameModes s t ∧ t = { s with lines := t.lines }

/-- The model's choice (log 12): R96 admits only the two states of the line, R26 says which they are, and CTRL.SET of
any other state is refused. -/
def Obligations.CtrlSetRefusesForeignStates : Prop :=
  ∀ (s : State) (c : CtrlLine) (x : CtrlState), x.owner ≠ c → exec (.ctrlSet c x) s = .refused (.notAStateOf c x)

/-! ### Serial Relay and its environment -/

/-- R125: a free register takes the byte, which joins the log; a full one refuses it, and nothing but the reported
answer changes. -/
def Obligations.TrySendAcceptsOrRefuses : Prop :=
  ∀ (s : State) (b : Byte),
    (s.hr = none → exec (.relayTrySend b) s = .next
      { s with hr := some b, txlog := s.txlog ++ [b], result := .accepted true }) ∧
    (∀ c, s.hr = some c → exec (.relayTrySend b) s = .next { s with result := .accepted false })

/-- R74 and log 9 (the model's choice of what executing a byte code by name means): each of the 19 rows offers its
code to the relay. -/
def Obligations.EachByteCodeIsOffered : Prop :=
  ∀ (s : State) (i : Instr) (b : Byte),
    (i, b) ∈ [(Instr.txHex0, (0x30 : Byte)), (.txHex1, 0x31), (.txHex2, 0x32), (.txHex3, 0x33), (.txHex4, 0x34),
      (.txHex5, 0x35), (.txHex6, 0x36), (.txHex7, 0x37), (.txHex8, 0x38), (.txHex9, 0x39), (.txHexa, 0x61),
      (.txHexb, 0x62), (.txHexc, 0x63), (.txHexd, 0x64), (.txHexe, 0x65), (.txHexf, 0x66), (.txNl, 0x0A),
      (.txSp, 0x20), (.txCr, 0x0D)] →
    (s.hr = none → exec i s = .next { s with hr := some b, txlog := s.txlog ++ [b], result := .accepted true }) ∧
    (∀ c, s.hr = some c → exec i s = .next { s with result := .accepted false })

/-- R126: RELAY.RECV consumes and returns the oldest pending byte; while none is pending it waits. -/
def Obligations.RecvConsumesTheOldestByte : Prop :=
  ∀ (s : State),
    (∀ b q, s.rxq = b :: q → exec .relayRecv s = .next { s with rxq := q, result := .byte b }) ∧
    (s.rxq = [] → exec .relayRecv s = .next s)

/-- R128, R129: TXD.DRAIN empties the holding register, RXS.SEND appends to the receive queue, and neither changes
anything else. R128 enables TXD.DRAIN on a full register only; that on an empty one it answers the unchanged state is
the model's choice (log 11). -/
def Obligations.EnvironmentStepsTouchTheirOwnQueue : Prop :=
  ∀ (s : State) (b : Byte), exec .txdDrain s = .next { s with hr := none } ∧
    exec (.rxsSend b) s = .next { s with rxq := s.rxq ++ [b] }

/-- R76 and log 9 (the model's choice of what executing the row by name means): the start byte is consumed by the
main flow that waits for it, and has no effect elsewhere. -/
def Obligations.StartByteEndsTheWait : Prop :=
  ∀ (s : State),
    (∀ q, s.ms = 8 → s.rxq = 0x0D :: q → exec .rxStart s = .next { s with ms := 9, rxq := q }) ∧
    (s.ms ≠ 8 ∨ s.rxq.head? ≠ some 0x0D → exec .rxStart s = .next s)

/-! ### Phase Sequencer -/

/-- R100, R73: SEQ.TICK while armed runs the operation that the counter decodes to, and always ends. -/
def Obligations.SeqTickRunsTheDecodedPhase : Prop :=
  ∀ (s : State), Wired s → DataInputs s → s.armed = true → s.tc / 4 ≤ 2 ^ s.cfg.aw →
    exec .seqTick s = exec (decodeTcFull s.cfg s.tc) s ∧ ∃ t, exec .seqTick s = .next t

/-- R101: in the terminal condition a tick changes nothing at all, whether the register is free or full. -/
def Obligations.TerminalTicksAreInert : Prop :=
  ∀ (s : State), exec .seqTerm s = .next s ∧
    (s.armed = true → terminal s = true → exec .seqTick s = .next s ∧ exec .timerTick s = .next s)

/-- R102: phase 0 that sends no separator drives the address, enables the outputs and advances, whatever the relay
holds. -/
def Obligations.Phase0WithoutSeparator : Prop :=
  ∀ (s : State) (a : Nat), Wired s → a % 16 ≠ 0 →
    ∃ t, exec (.seqP0 a) s = .next t ∧ latchValue t s.cfg.addrBus = a % 2 ^ s.cfg.aw ∧
      latchOf t s.cfg.oeLine = some (levelBit s.cfg .oeRead) ∧
      OtherLatches (s.cfg.oeLine :: s.cfg.addrBus) s t ∧ SameModes s t ∧
      t = { s with lines := t.lines, tc := (s.tc + 1) % 2 ^ s.cfg.cw }

/-- R102: phase 0 of a block-first address with a free relay also sends the line feed. -/
def Obligations.Phase0SeparatorAccepted : Prop :=
  ∀ (s : State) (a : Nat) (i : Instr), Wired s → s.hr = none → i = .seqP0NL a ∨ (i = .seqP0 a ∧ a % 16 = 0) →
    ∃ t, exec i s = .next t ∧ latchValue t s.cfg.addrBus = a % 2 ^ s.cfg.aw ∧
      latchOf t s.cfg.oeLine = some (levelBit s.cfg .oeRead) ∧
      OtherLatches (s.cfg.oeLine :: s.cfg.addrBus) s t ∧ SameModes s t ∧
      t = { s with lines := t.lines, tc := (s.tc + 1) % 2 ^ s.cfg.cw, hr := some 0x0A, txlog := s.txlog ++ [0x0A] }

/-- R102, R108: phase 0 of a block-first address with a busy relay drives the address and stops there; the retry
leaves the same state. -/
def Obligations.Phase0SeparatorRefused : Prop :=
  ∀ (s : State) (a : Nat) (i : Instr) (c : Byte), Wired s → s.hr = some c →
    i = .seqP0NL a ∨ (i = .seqP0 a ∧ a % 16 = 0) →
    ∃ t, exec i s = .next t ∧ latchValue t s.cfg.addrBus = a % 2 ^ s.cfg.aw ∧ OtherLatches s.cfg.addrBus s t ∧
      SameModes s t ∧ t = { s with lines := t.lines } ∧ exec i t = .next t

/-- R103: phase 1 samples the Data Bus (the addressed cell while the device drives, some value below `2^DW`
otherwise), disables the outputs, and, the relay free, sends the high digit and advances. -/
def Obligations.Phase1SamplesAndSends : Prop :=
  ∀ (s : State) (a : Nat), Wired s → DataInputs s → s.hr = none →
    ∃ t v k, exec (.seqP1 a) s = .next t ∧ v < 2 ^ s.cfg.dw ∧
      (driving s = true → k = 0 ∧ v = (memRead s.mem (latchValue s s.cfg.addrBus)).toNat % 2 ^ s.cfg.dw) ∧
      latchOf t s.cfg.oeLine = some (levelBit s.cfg .oeOff) ∧ OtherLatches [s.cfg.oeLine] s t ∧ SameModes s t ∧
      t = { s with
        lines := t.lines, sb := BitVec.ofNat 8 v, draws := s.draws + k, tc := (s.tc + 1) % 2 ^ s.cfg.cw,
        hr := some (hexChar (highNibble (BitVec.ofNat 8 v))),
        txlog := s.txlog ++ [hexChar (highNibble (BitVec.ofNat 8 v))] }

/-- R103, R108: the relay busy, the sample and the output-enable change stay done, and nothing is sent. -/
def Obligations.Phase1Refused : Prop :=
  ∀ (s : State) (a : Nat) (c : Byte), Wired s → DataInputs s → s.hr = some c →
    ∃ t v k, exec (.seqP1 a) s = .next t ∧ v < 2 ^ s.cfg.dw ∧
      (driving s = true → k = 0 ∧ v = (memRead s.mem (latchValue s s.cfg.addrBus)).toNat % 2 ^ s.cfg.dw) ∧
      latchOf t s.cfg.oeLine = some (levelBit s.cfg .oeOff) ∧ OtherLatches [s.cfg.oeLine] s t ∧ SameModes s t ∧
      t = { s with lines := t.lines, sb := BitVec.ofNat 8 v, draws := s.draws + k }

/-- R104: phase 2 sends the low digit and advances; the relay busy, nothing changes at all. -/
def Obligations.Phase2SendsTheLowDigit : Prop :=
  ∀ (s : State) (a : Nat),
    (s.hr = none → exec (.seqP2 a) s = .next
      { s with hr := some (hexChar (lowNibble s.sb)), txlog := s.txlog ++ [hexChar (lowNibble s.sb)],
               tc := (s.tc + 1) % 2 ^ s.cfg.cw }) ∧
    (∀ c, s.hr = some c → exec (.seqP2 a) s = .next s)

/-- R105: phase 3 sends a carriage return at a block-last address and a space at any other, and advances; the relay
busy, nothing changes at all. -/
def Obligations.Phase3SendsTheSeparator : Prop :=
  ∀ (s : State) (a : Nat) (i : Instr) (b : Byte),
    (i = .seqP3 a ∧ b = if a % 16 = 15 then 0x0D else 0x20) ∨ (i = .seqP3CR a ∧ b = 0x0D) →
    (s.hr = none → exec i s = .next
      { s with hr := some b, txlog := s.txlog ++ [b], tc := (s.tc + 1) % 2 ^ s.cfg.cw }) ∧
    (∀ c, s.hr = some c → exec i s = .next s)

/-- R106, R107: one invocation appends at most one byte and advances the counter by at most one; it appends nothing
without advancing, and a phase that offers a byte to a busy relay does neither. -/
def Obligations.OneByteAndOneStepPerInvocation : Prop :=
  ∀ (s t : State) (i : Instr), isHandlerOp i = true → exec i s = .next t →
    (t.tc = s.tc ∨ t.tc = (s.tc + 1) % 2 ^ s.cfg.cw) ∧
    (t.txlog = s.txlog ∨ ∃ b, t.txlog = s.txlog ++ [b] ∧ s.hr = none ∧ t.tc = (s.tc + 1) % 2 ^ s.cfg.cw) ∧
    (∀ c, s.hr = some c → offersByte i = true → t.tc = s.tc ∧ t.txlog = s.txlog ∧ t.hr = s.hr)

/-- R109: any number of refused ticks (5 in the rule) and then an accepted one emit exactly one byte and advance the
counter by exactly 1 across all of them. -/
def Obligations.BackpressureAdvancesOnce : Prop :=
  ∀ (s : State) (n : Nat) (c : Byte), Wired s → DataInputs s → s.cfg.variant = .full → s.armed = true →
    s.tc / 4 < 2 ^ s.cfg.aw → offersByte (decodeTcFull s.cfg s.tc) = true → s.hr = some c →
    ∃ u t b, repeatOp .timerTick n s = .next u ∧ u.tc = s.tc ∧ u.txlog = s.txlog ∧ u.hr = some c ∧
      runOps [.txdDrain, .timerTick] u = .next t ∧ t.tc = s.tc + 1 ∧ t.txlog = s.txlog ++ [b]

/-- R187: after a refused phase 1 the device no longer drives, and the retry's sample is made of fresh draws, bit by
bit, whatever the cell holds. -/
def Obligations.RefusedPhase1LosesTheSample : Prop :=
  ∀ (s : State) (a : Nat) (c : Byte), Wired s → DataInputs s → s.hr = some c →
    ∃ u t, exec (.seqP1 a) s = .next u ∧ driving u = false ∧ runOps [.txdDrain, .seqP1 a] u = .next t ∧
      ∀ i < s.cfg.dw, t.sb.getLsbD i = Config.drawBit (u.draws + i)

/-- R51: the read transaction. Phase 0 of an address and, the relay drained, phase 1 put the cell into SB. -/
def Obligations.ReadTransactionSamplesTheCell : Prop :=
  ∀ (s : State) (a : Nat), Wired s → DataInputs s → Selected s → s.hr = none → a < 2 ^ s.cfg.aw →
    ∃ t, runOps [.seqP0 a, .txdDrain, .seqP1 a] s = .next t ∧ t.sb = cellSample s a ∧
      latchValue t s.cfg.addrBus = a ∧ latchOf t s.cfg.oeLine = some (levelBit s.cfg .oeOff)

/-- R110: what one address contributes to the output when the relay is free at every tick. -/
def Obligations.OneAddressContributesItsText : Prop :=
  ∀ (s : State) (a : Nat), Wired s → DataInputs s → Selected s → s.cfg.variant = .full → s.armed = true →
    s.tc = 4 * a → a < 2 ^ s.cfg.aw →
    ∃ t, runOps [.txdDrain, .timerTick, .txdDrain, .timerTick, .txdDrain, .timerTick, .txdDrain, .timerTick] s = .next t ∧
      t.txlog = s.txlog ++ cellText a (cellSample s a) ∧ t.tc = 4 * (a + 1)

/-- R83, R110, R113: from the state at arming, `4 * 2^AW` ticks that each find the relay free send the whole dump,
line by line, each cell as the device holds it, and reach the terminal condition. -/
def Obligations.FreeRunningDumpIsTheDevice : Prop :=
  ∀ (s : State), Wired s → DataInputs s → Selected s → s.cfg.variant = .full → s.armed = true → s.tc = 0 →
    s.txlog = [] →
    ∃ t, runOps ((List.replicate (4 * 2 ^ s.cfg.aw) [Instr.txdDrain, .timerTick]).flatten) s = .next t ∧
      t.txlog = dumpText (cellSample s) (2 ^ s.cfg.aw) ∧ terminal t = true

/-- R120: one tick of the REDUCED variant drives the low bits of the counter and increments it modulo `2^CW`, the
relay free or busy; nothing else changes. -/
def Obligations.ReducedTickDrivesTheCounter : Prop :=
  ∀ (s : State) (i : Instr), Wired s → s.armed = true → i = .rseqP0 ∨ (i = .timerTick ∧ s.cfg.variant = .reduced) →
    ∃ t, exec i s = .next t ∧ latchValue t s.cfg.addrBus = s.tc % 2 ^ s.cfg.aw ∧
      OtherLatches s.cfg.addrBus s t ∧ SameModes s t ∧
      t = { s with lines := t.lines, tc := (s.tc + 1) % 2 ^ s.cfg.cw }

/-- R122: after `K >= 1` invocations from counter 0 the Address Bus holds `(K - 1) mod 2^AW` and the counter is
`K mod 2^CW`. -/
def Obligations.ReducedScanSequence : Prop :=
  ∀ (s : State) (K : Nat), Wired s → s.armed = true → s.cfg.variant = .reduced → s.tc = 0 → 1 ≤ K →
    ∃ t, repeatOp .timerTick K s = .next t ∧ latchValue t s.cfg.addrBus = (K - 1) % 2 ^ s.cfg.aw ∧
      t.tc = K % 2 ^ s.cfg.cw

/-- R121: in the REDUCED variant no step but a reset writes the Sampled Byte, nothing is ever sent, the terminal
condition never holds, and once armed the control lines stay as they are. -/
def Obligations.ReducedNeverSamplesOrSends : Prop :=
  ∀ (s t : State), BlockInv s → s.cfg.variant = .reduced → s.stim.head? ≠ some .rst → step s = .next t →
    t.sb = s.sb ∧ t.txlog = [] ∧ terminal t = false ∧
    (s.armed = true → ∀ l ∈ s.cfg.ctrlBus, latchOf t l = latchOf s l)

/-! ### Bring-up -/

/-- R136, R143, R146: the platform's steps change `MS` only, and the permanent wait changes nothing. -/
def Obligations.PlatformStepsOnlyMoveOn : Prop :=
  ∀ (s : State), exec .buClocks s = .next { s with ms := 1 } ∧ exec .buSerialCfg s = .next { s with ms := 8 } ∧
    exec .buHalt s = .next s

/-- R137, R138: the Address Bus becomes an output and the Data Bus a floating input; no latch changes. -/
def Obligations.BringUpConfiguresTheBuses : Prop :=
  ∀ (s : State) (i : Instr) (ls : List Line) (md : Mode) (n : Fin 11), Wired s →
    (i = .buCfgAddr ∧ ls = s.cfg.addrBus ∧ md = ⟨.output, s.cfg.addrEconf⟩ ∧ n = 2) ∨
    (i = .buCfgData ∧ ls = s.cfg.dataBus ∧ md = ⟨.input, .floating⟩ ∧ n = 3) →
    ∃ t, exec i s = .next t ∧ (∀ l, modeOf t l = if l ∈ ls then some md else modeOf s l) ∧ OtherLatches [] s t ∧
      t = { s with lines := t.lines, ms := n }

/-- R139: the three control latches get their inactive levels, and no mode changes. -/
def Obligations.ControlLatchesGetInactiveLevels : Prop :=
  ∀ (s : State), Wired s →
    ∃ t, exec .buCtrlLevels s = .next t ∧ latchOf t s.cfg.oeLine = some (levelBit s.cfg .oeOff) ∧
      latchOf t s.cfg.ceLine = some (levelBit s.cfg .ceDeselected) ∧
      latchOf t s.cfg.weLine = some (levelBit s.cfg .weInactive) ∧ OtherLatches s.cfg.ctrlBus s t ∧
      SameModes s t ∧ t = { s with lines := t.lines, ms := 4 }

/-- R140: the control lines become open-drain outputs; every latch stays as it is, so a line that holds its inactive
level becomes an output holding it. -/
def Obligations.ControlLinesBecomeOutputs : Prop :=
  ∀ (s : State), Wired s →
    ∃ t, exec .buCfgCtrl s = .next t ∧
      (∀ l, modeOf t l = if l ∈ s.cfg.ctrlBus then some ⟨.output, .openDrain⟩ else modeOf s l) ∧
      OtherLatches [] s t ∧ t = { s with lines := t.lines, ms := 5 }

/-- R141, R147: chip-enable is asserted in the FULL variant; the REDUCED variant only passes the step. -/
def Obligations.ChipEnableIsAssertedInFullOnly : Prop :=
  ∀ (s : State), Wired s →
    (s.cfg.variant = .full → ∃ t, exec .buCeAssert s = .next t ∧
      latchOf t s.cfg.ceLine = some (levelBit s.cfg .ceSelected) ∧ OtherLatches [s.cfg.ceLine] s t ∧
      SameModes s t ∧ t = { s with lines := t.lines, ms := 6 }) ∧
    (s.cfg.variant = .reduced → exec .buCeAssert s = .next { s with ms := 6 })

/-- R142, R145: the counter is zeroed, and arming sets the interrupt enable; each moves on by one step. -/
def Obligations.CounterInitAndArming : Prop :=
  ∀ (s : State), exec .buTcInit s = .next { s with tc := 0, ms := 7 } ∧
    exec .buArm s = .next { s with armed := true, ms := 10 }

/-- R144, R147: the start wait consumes one byte; only the carriage return goes on; the REDUCED variant passes the
step. With no byte pending R144 gives the main flow no step; that the operation then answers the unchanged state is
the model's choice (logs 11, 21). -/
def Obligations.StartWaitTakesOneByte : Prop :=
  ∀ (s : State),
    (s.cfg.variant = .full →
      (∀ q, s.rxq = 0x0D :: q → exec .buWaitStart s = .next { s with rxq := q, ms := 9 }) ∧
      (∀ b q, s.rxq = b :: q → b ≠ 0x0D → exec .buWaitStart s = .next { s with rxq := q, ms := 8 }) ∧
      (s.rxq = [] → exec .buWaitStart s = .next s)) ∧
    (s.cfg.variant = .reduced → exec .buWaitStart s = .next { s with ms := 9 })

/-! ### The timer interrupt and reset -/

/-- R156, R159, R160: a tick while armed runs the handler of the configured variant, which always ends; a tick while
not armed has no effect (R12; the model's choice of log 11). -/
def Obligations.TickRunsTheHandlerWhenArmed : Prop :=
  ∀ (s : State),
    (s.armed = false → exec .timerTick s = .next s ∧ exec .seqTick s = .next s ∧ exec .rseqP0 s = .next s) ∧
    (s.armed = true → s.cfg.variant = .full → exec .timerTick s = exec .seqTick s) ∧
    (s.armed = true → s.cfg.variant = .reduced → exec .timerTick s = exec .rseqP0 s) ∧
    (s.armed = true → Wired s → DataInputs s → s.cfg.variant = .reduced ∨ s.tc / 4 ≤ 2 ^ s.cfg.aw →
      ∃ t, exec .timerTick s = .next t)

/-- R180, R39: what the reset event leaves: every Line a floating input, not armed, at bring-up step 0, register,
queue and log empty; the counter within its width. The values of the counter, the Sampled Byte and the latches are
free (log 5). That the configuration, the device's cells, the Lines of the table and the pending events are kept is
the model's reading (log 27, DEDUCED). -/
def Obligations.ResetEventLeavesTheResetState : Prop :=
  ∀ (s : State), ∃ t, exec .rst s = .next t ∧ t.ms = 0 ∧ t.armed = false ∧ t.hr = none ∧ t.txlog = [] ∧ t.rxq = [] ∧
    t.tc < 2 ^ s.cfg.cw ∧ (∀ l, modeOf t l = (modeOf s l).map fun _ => ⟨.input, .floating⟩) ∧
    t.lines.map LineCell.line = s.lines.map LineCell.line ∧ t.cfg = s.cfg ∧ t.mem = s.mem ∧ t.stim = s.stim

/-- R39: the reset state of the machine holds what the spec fixes. -/
def Obligations.ResetStateAsTheSpecFixesIt : Prop :=
  State.reset.ms = 0 ∧ State.reset.armed = false ∧ State.reset.hr = none ∧ State.reset.txlog = [] ∧
  State.reset.rxq = [] ∧ ∀ l ∈ State.reset.cfg.allLines, modeOf State.reset l = some ⟨.input, .floating⟩

/-! ### Invariants and frames of the whole machine -/

/-- The invariant holds at reset. -/
def Obligations.InvariantAtReset : Prop := BlockInv State.reset

/-- Every step keeps the shape of the state. -/
def Obligations.StepKeepsTheShape : Prop := ∀ s t, BlockInv s → step s = .next t → StructInv t

/-- Every step keeps the main flow and the counter in their bounds. -/
def Obligations.StepKeepsTheFlow : Prop := ∀ s t, BlockInv s → step s = .next t → FlowInv t

/-- Every step keeps the serial output well formed. -/
def Obligations.StepKeepsTheSerialOutput : Prop := ∀ s t, BlockInv s → step s = .next t → SerialInv t

/-- Every step keeps the wires as R112 tabulates them. -/
def Obligations.StepKeepsTheWiring : Prop := ∀ s t, BlockInv s → step s = .next t → WiringInv t

/-- From every state of the invariant a step answers a next state. R193 says it of the handler; in the main flow's
waits, where R144 and R146 give it no step, the answer is the unchanged state by the model's choice (log 21). -/
def Obligations.NoStepStops : Prop := ∀ s, BlockInv s → ∃ t, step s = .next t

/-- R56, R8: no operation writes a cell of the device or the configuration. -/
def Obligations.NoOperationWritesTheDevice : Prop :=
  ∀ (i : Instr) (s t : State), exec i s = .next t →
    t.cfg = s.cfg ∧ ∀ a, memRead t.mem a = memRead s.mem a

/-- R97: the Bus Abstraction reads and writes neither the counter, the Sampled Byte, ARMED nor the relay, and no
step of the main flow. -/
def Obligations.BusFamilyLeavesTheSequencerAlone : Prop :=
  ∀ (i : Instr) (s t : State),
    (∃ l m e, i = .lineConfigure l m e) ∨ (∃ l b, i = .lineSet l b) ∨ (∃ l, i = .lineGet l) ∨
    (∃ B m e, i = .busConfigure B m e) ∨ (∃ B v, i = .busWrite B v) ∨ (∃ B, i = .busRead B) ∨
    (∃ c x, i = .ctrlSet c x) →
    exec i s = .next t →
    t = { s with lines := t.lines, draws := t.draws, result := t.result }
end

