-- ==== Sys2Proof/Laws/State.lean ====
section
/-! SUPPORT. One lemma per field per update of State, so that no proof unfolds a record update. -/

namespace Sys2Proof.Machine

@[simp] theorem goTo_cfg (n : Fin 11) (s : State) : (goTo n s).cfg = s.cfg := rfl

@[simp] theorem goTo_tc (n : Fin 11) (s : State) : (goTo n s).tc = s.tc := rfl

@[simp] theorem goTo_sb (n : Fin 11) (s : State) : (goTo n s).sb = s.sb := rfl

@[simp] theorem goTo_lines (n : Fin 11) (s : State) : (goTo n s).lines = s.lines := rfl

@[simp] theorem goTo_armed (n : Fin 11) (s : State) : (goTo n s).armed = s.armed := rfl

@[simp] theorem goTo_ms (n : Fin 11) (s : State) : (goTo n s).ms = n := rfl

@[simp] theorem goTo_hr (n : Fin 11) (s : State) : (goTo n s).hr = s.hr := rfl

@[simp] theorem goTo_txlog (n : Fin 11) (s : State) : (goTo n s).txlog = s.txlog := rfl

@[simp] theorem goTo_rxq (n : Fin 11) (s : State) : (goTo n s).rxq = s.rxq := rfl

@[simp] theorem goTo_mem (n : Fin 11) (s : State) : (goTo n s).mem = s.mem := rfl

@[simp] theorem goTo_stim (n : Fin 11) (s : State) : (goTo n s).stim = s.stim := rfl

@[simp] theorem goTo_draws (n : Fin 11) (s : State) : (goTo n s).draws = s.draws := rfl

@[simp] theorem goTo_result (n : Fin 11) (s : State) : (goTo n s).result = s.result := rfl

@[simp] theorem advance_cfg (s : State) : (advance s).cfg = s.cfg := rfl

@[simp] theorem advance_tc (s : State) : (advance s).tc = (s.tc + 1) % 2 ^ s.cfg.cw := rfl

@[simp] theorem advance_sb (s : State) : (advance s).sb = s.sb := rfl

@[simp] theorem advance_lines (s : State) : (advance s).lines = s.lines := rfl

@[simp] theorem advance_armed (s : State) : (advance s).armed = s.armed := rfl

@[simp] theorem advance_ms (s : State) : (advance s).ms = s.ms := rfl

@[simp] theorem advance_hr (s : State) : (advance s).hr = s.hr := rfl

@[simp] theorem advance_txlog (s : State) : (advance s).txlog = s.txlog := rfl

@[simp] theorem advance_rxq (s : State) : (advance s).rxq = s.rxq := rfl

@[simp] theorem advance_mem (s : State) : (advance s).mem = s.mem := rfl

@[simp] theorem advance_stim (s : State) : (advance s).stim = s.stim := rfl

@[simp] theorem advance_draws (s : State) : (advance s).draws = s.draws := rfl

@[simp] theorem advance_result (s : State) : (advance s).result = s.result := rfl

@[simp] theorem popStim_cfg (s : State) : (popStim s).cfg = s.cfg := rfl

@[simp] theorem popStim_tc (s : State) : (popStim s).tc = s.tc := rfl

@[simp] theorem popStim_sb (s : State) : (popStim s).sb = s.sb := rfl

@[simp] theorem popStim_lines (s : State) : (popStim s).lines = s.lines := rfl

@[simp] theorem popStim_armed (s : State) : (popStim s).armed = s.armed := rfl

@[simp] theorem popStim_ms (s : State) : (popStim s).ms = s.ms := rfl

@[simp] theorem popStim_hr (s : State) : (popStim s).hr = s.hr := rfl

@[simp] theorem popStim_txlog (s : State) : (popStim s).txlog = s.txlog := rfl

@[simp] theorem popStim_rxq (s : State) : (popStim s).rxq = s.rxq := rfl

@[simp] theorem popStim_mem (s : State) : (popStim s).mem = s.mem := rfl

@[simp] theorem popStim_stim (s : State) : (popStim s).stim = s.stim.tail := rfl

@[simp] theorem popStim_draws (s : State) : (popStim s).draws = s.draws := rfl

@[simp] theorem popStim_result (s : State) : (popStim s).result = s.result := rfl

@[simp] theorem setLine_cfg (l : Line) (b : Bool) (s : State) : (setLine l b s).cfg = s.cfg := rfl

@[simp] theorem setLine_tc (l : Line) (b : Bool) (s : State) : (setLine l b s).tc = s.tc := rfl

@[simp] theorem setLine_sb (l : Line) (b : Bool) (s : State) : (setLine l b s).sb = s.sb := rfl

@[simp] theorem setLine_armed (l : Line) (b : Bool) (s : State) : (setLine l b s).armed = s.armed := rfl

@[simp] theorem setLine_ms (l : Line) (b : Bool) (s : State) : (setLine l b s).ms = s.ms := rfl

@[simp] theorem setLine_hr (l : Line) (b : Bool) (s : State) : (setLine l b s).hr = s.hr := rfl

@[simp] theorem setLine_txlog (l : Line) (b : Bool) (s : State) : (setLine l b s).txlog = s.txlog := rfl

@[simp] theorem setLine_rxq (l : Line) (b : Bool) (s : State) : (setLine l b s).rxq = s.rxq := rfl

@[simp] theorem setLine_mem (l : Line) (b : Bool) (s : State) : (setLine l b s).mem = s.mem := rfl

@[simp] theorem setLine_stim (l : Line) (b : Bool) (s : State) : (setLine l b s).stim = s.stim := rfl

@[simp] theorem setLine_draws (l : Line) (b : Bool) (s : State) : (setLine l b s).draws = s.draws := rfl

@[simp] theorem setLine_result (l : Line) (b : Bool) (s : State) : (setLine l b s).result = s.result := rfl

@[simp] theorem configureLine_cfg (l : Line) (md : Mode) (s : State) : (configureLine l md s).cfg = s.cfg := rfl

@[simp] theorem configureLine_tc (l : Line) (md : Mode) (s : State) : (configureLine l md s).tc = s.tc := rfl

@[simp] theorem configureLine_sb (l : Line) (md : Mode) (s : State) : (configureLine l md s).sb = s.sb := rfl

@[simp] theorem configureLine_armed (l : Line) (md : Mode) (s : State) : (configureLine l md s).armed = s.armed := rfl

@[simp] theorem configureLine_ms (l : Line) (md : Mode) (s : State) : (configureLine l md s).ms = s.ms := rfl

@[simp] theorem configureLine_hr (l : Line) (md : Mode) (s : State) : (configureLine l md s).hr = s.hr := rfl

@[simp] theorem configureLine_txlog (l : Line) (md : Mode) (s : State) : (configureLine l md s).txlog = s.txlog := rfl

@[simp] theorem configureLine_rxq (l : Line) (md : Mode) (s : State) : (configureLine l md s).rxq = s.rxq := rfl

@[simp] theorem configureLine_mem (l : Line) (md : Mode) (s : State) : (configureLine l md s).mem = s.mem := rfl

@[simp] theorem configureLine_stim (l : Line) (md : Mode) (s : State) : (configureLine l md s).stim = s.stim := rfl

@[simp] theorem configureLine_draws (l : Line) (md : Mode) (s : State) : (configureLine l md s).draws = s.draws := rfl

@[simp] theorem configureLine_result (l : Line) (md : Mode) (s : State) : (configureLine l md s).result = s.result := rfl

@[simp] theorem driveCtrl_cfg (x : CtrlState) (s : State) : (driveCtrl x s).cfg = s.cfg := rfl

@[simp] theorem driveCtrl_tc (x : CtrlState) (s : State) : (driveCtrl x s).tc = s.tc := rfl

@[simp] theorem driveCtrl_sb (x : CtrlState) (s : State) : (driveCtrl x s).sb = s.sb := rfl

@[simp] theorem driveCtrl_armed (x : CtrlState) (s : State) : (driveCtrl x s).armed = s.armed := rfl

@[simp] theorem driveCtrl_ms (x : CtrlState) (s : State) : (driveCtrl x s).ms = s.ms := rfl

@[simp] theorem driveCtrl_hr (x : CtrlState) (s : State) : (driveCtrl x s).hr = s.hr := rfl

@[simp] theorem driveCtrl_txlog (x : CtrlState) (s : State) : (driveCtrl x s).txlog = s.txlog := rfl

@[simp] theorem driveCtrl_rxq (x : CtrlState) (s : State) : (driveCtrl x s).rxq = s.rxq := rfl

@[simp] theorem driveCtrl_mem (x : CtrlState) (s : State) : (driveCtrl x s).mem = s.mem := rfl

@[simp] theorem driveCtrl_stim (x : CtrlState) (s : State) : (driveCtrl x s).stim = s.stim := rfl

@[simp] theorem driveCtrl_draws (x : CtrlState) (s : State) : (driveCtrl x s).draws = s.draws := rfl

@[simp] theorem driveCtrl_result (x : CtrlState) (s : State) : (driveCtrl x s).result = s.result := rfl

@[simp] theorem drawBit_cfg (s : State) : (drawBit s).2.cfg = s.cfg := rfl

@[simp] theorem drawBit_tc (s : State) : (drawBit s).2.tc = s.tc := rfl

@[simp] theorem drawBit_sb (s : State) : (drawBit s).2.sb = s.sb := rfl

@[simp] theorem drawBit_lines (s : State) : (drawBit s).2.lines = s.lines := rfl

@[simp] theorem drawBit_armed (s : State) : (drawBit s).2.armed = s.armed := rfl

@[simp] theorem drawBit_ms (s : State) : (drawBit s).2.ms = s.ms := rfl

@[simp] theorem drawBit_hr (s : State) : (drawBit s).2.hr = s.hr := rfl

@[simp] theorem drawBit_txlog (s : State) : (drawBit s).2.txlog = s.txlog := rfl

@[simp] theorem drawBit_rxq (s : State) : (drawBit s).2.rxq = s.rxq := rfl

@[simp] theorem drawBit_mem (s : State) : (drawBit s).2.mem = s.mem := rfl

@[simp] theorem drawBit_stim (s : State) : (drawBit s).2.stim = s.stim := rfl

@[simp] theorem drawBit_draws (s : State) : (drawBit s).2.draws = s.draws + 1 := rfl

@[simp] theorem drawBit_result (s : State) : (drawBit s).2.result = s.result := rfl

@[simp] theorem sendByName_cfg (b : Byte) (s : State) : (sendByName b s).cfg = s.cfg := by
  unfold sendByName trySend; split <;> rfl

@[simp] theorem sendByName_tc (b : Byte) (s : State) : (sendByName b s).tc = s.tc := by
  unfold sendByName trySend; split <;> rfl

@[simp] theorem sendByName_sb (b : Byte) (s : State) : (sendByName b s).sb = s.sb := by
  unfold sendByName trySend; split <;> rfl

@[simp] theorem sendByName_lines (b : Byte) (s : State) : (sendByName b s).lines = s.lines := by
  unfold sendByName trySend; split <;> rfl

@[simp] theorem sendByName_armed (b : Byte) (s : State) : (sendByName b s).armed = s.armed := by
  unfold sendByName trySend; split <;> rfl

@[simp] theorem sendByName_ms (b : Byte) (s : State) : (sendByName b s).ms = s.ms := by
  unfold sendByName trySend; split <;> rfl

@[simp] theorem sendByName_rxq (b : Byte) (s : State) : (sendByName b s).rxq = s.rxq := by
  unfold sendByName trySend; split <;> rfl

@[simp] theorem sendByName_mem (b : Byte) (s : State) : (sendByName b s).mem = s.mem := by
  unfold sendByName trySend; split <;> rfl

@[simp] theorem sendByName_stim (b : Byte) (s : State) : (sendByName b s).stim = s.stim := by
  unfold sendByName trySend; split <;> rfl

@[simp] theorem sendByName_draws (b : Byte) (s : State) : (sendByName b s).draws = s.draws := by
  unfold sendByName trySend; split <;> rfl

@[simp] theorem enterHandler_cfg (s : State) : (enterHandler s).cfg = s.cfg := rfl

@[simp] theorem enterHandler_tc (s : State) : (enterHandler s).tc = s.tc := rfl

@[simp] theorem enterHandler_sb (s : State) : (enterHandler s).sb = s.sb := rfl

@[simp] theorem enterHandler_lines (s : State) : (enterHandler s).lines = s.lines := rfl

@[simp] theorem enterHandler_armed (s : State) : (enterHandler s).armed = s.armed := rfl

@[simp] theorem enterHandler_ms (s : State) : (enterHandler s).ms = s.ms := rfl

@[simp] theorem enterHandler_hr (s : State) : (enterHandler s).hr = s.hr := rfl

@[simp] theorem enterHandler_txlog (s : State) : (enterHandler s).txlog = s.txlog := rfl

@[simp] theorem enterHandler_rxq (s : State) : (enterHandler s).rxq = s.rxq := rfl

@[simp] theorem enterHandler_mem (s : State) : (enterHandler s).mem = s.mem := rfl

@[simp] theorem enterHandler_stim (s : State) : (enterHandler s).stim = s.stim := rfl

@[simp] theorem enterHandler_draws (s : State) : (enterHandler s).draws = s.draws := rfl

@[simp] theorem enterHandler_result (s : State) : (enterHandler s).result = s.result := rfl

@[simp] theorem hardReset_cfg (s : State) : (hardReset s).cfg = s.cfg := rfl

@[simp] theorem hardReset_lines (s : State) : (hardReset s).lines = resetLines s.draws s.lines := rfl

@[simp] theorem hardReset_armed (s : State) : (hardReset s).armed = false := rfl

@[simp] theorem hardReset_ms (s : State) : (hardReset s).ms = 0 := rfl

@[simp] theorem hardReset_hr (s : State) : (hardReset s).hr = none := rfl

@[simp] theorem hardReset_txlog (s : State) : (hardReset s).txlog = [] := rfl

@[simp] theorem hardReset_rxq (s : State) : (hardReset s).rxq = [] := rfl

@[simp] theorem hardReset_mem (s : State) : (hardReset s).mem = s.mem := rfl

@[simp] theorem hardReset_stim (s : State) : (hardReset s).stim = s.stim := rfl

@[simp] theorem hardReset_draws (s : State) : (hardReset s).draws = s.draws + s.lines.length + 1 := rfl

@[simp] theorem hardReset_result (s : State) : (hardReset s).result = .none := rfl


@[simp] theorem leaveHandler_eq (o : Outcome State) : leaveHandler o = o := rfl

@[simp] theorem andThen_next {α β : Type} (a : α) (k : α → Outcome β) : andThen (.next a) k = k a := rfl

@[simp] theorem andThen_fault {α β : Type} (r : Fault) (k : α → Outcome β) : andThen (.fault r) k = .fault r := rfl

@[simp] theorem andThen_refused {α β : Type} (r : Refusal) (k : α → Outcome β) :
    andThen (.refused r) k = .refused r := rfl

/-- What an answer of a sequence says about its first part. -/
theorem andThen_eq_next {α β : Type} {o : Outcome α} {k : α → Outcome β} {b : β}
    (h : andThen o k = .next b) : ∃ a, o = .next a ∧ k a = .next b := by
  cases o with
  | next a => exact ⟨a, rfl, h⟩
  | fault r => simp [andThen] at h
  | refused r => simp [andThen] at h

end Sys2Proof.Machine
end

