-- ==== Sys2Proof/Laws/Config.lean ====
section
/-! SUPPORT. What a legal configuration gives (R9): widths, and that the Lines of the three buses are pairwise
distinct. -/

namespace Sys2Proof.Machine

variable {cfg : Config}

theorem configLegal_aw (h : configLegal cfg = true) : 4 ≤ cfg.aw := by
  simp only [configLegal, Bool.and_eq_true, decide_eq_true_eq] at h; tauto

theorem configLegal_dw (h : configLegal cfg = true) : 1 ≤ cfg.dw ∧ cfg.dw ≤ 8 := by
  simp only [configLegal, Bool.and_eq_true, decide_eq_true_eq] at h; tauto

theorem configLegal_addrLength (h : configLegal cfg = true) : cfg.addrBus.length = cfg.aw := by
  simp only [configLegal, Bool.and_eq_true, decide_eq_true_eq] at h; tauto

theorem configLegal_dataLength (h : configLegal cfg = true) : cfg.dataBus.length = cfg.dw := by
  simp only [configLegal, Bool.and_eq_true, decide_eq_true_eq] at h; tauto

theorem configLegal_nodup (h : configLegal cfg = true) : cfg.allLines.Nodup := by
  simp only [configLegal, Bool.and_eq_true, decide_eq_true_eq] at h; tauto

/-- R9 (c): in the FULL variant the terminal value fits the counter. -/
theorem configLegal_full (h : configLegal cfg = true) (hv : cfg.variant = .full) : cfg.aw + 3 ≤ cfg.cw := by
  simp only [configLegal, hv, Bool.and_eq_true, decide_eq_true_eq] at h; tauto

/-- R9 (d). -/
theorem configLegal_reduced (h : configLegal cfg = true) (hv : cfg.variant = .reduced) : cfg.aw ≤ cfg.cw := by
  simp only [configLegal, hv, Bool.and_eq_true, decide_eq_true_eq] at h; tauto

/-- R9 (c): the successor of any counter value up to the terminal value does not wrap. -/
theorem terminal_lt (h : configLegal cfg = true) (hv : cfg.variant = .full) : 4 * 2 ^ cfg.aw < 2 ^ cfg.cw := by
  have := Nat.pow_le_pow_right (n := 2) (by omega) (configLegal_full h hv)
  have hp : 0 < 2 ^ cfg.aw := by positivity
  rw [pow_add] at this; omega

/-- R9 (a): the address space is a whole number of 16-address blocks. -/
theorem sixteen_dvd (h : configLegal cfg = true) : 16 ∣ 2 ^ cfg.aw := by
  have := Nat.pow_dvd_pow 2 (configLegal_aw h); simpa using this

/-- The Lines of the buses, bus by bus: no repeats, and no Line on two buses. -/
structure Apart (cfg : Config) : Prop where
  addr      : cfg.addrBus.Nodup
  data      : cfg.dataBus.Nodup
  ctrl      : cfg.ctrlBus.Nodup
  addr_data : ∀ l ∈ cfg.addrBus, l ∉ cfg.dataBus
  addr_ctrl : ∀ l ∈ cfg.addrBus, l ∉ cfg.ctrlBus
  data_ctrl : ∀ l ∈ cfg.dataBus, l ∉ cfg.ctrlBus

/-- R9 (e). -/
theorem configLegal_apart (h : configLegal cfg = true) : Apart cfg := by
  have hn := configLegal_nodup h
  rw [Config.allLines, List.append_assoc, List.nodup_append, List.nodup_append] at hn
  obtain ⟨h1, ⟨h2, h3, h4⟩, h5⟩ := hn
  refine ⟨h1, h2, h3, fun l hl hl' => h5 l hl l (by simp [hl']) rfl,
    fun l hl hl' => h5 l hl l (by simp [hl']) rfl, fun l hl hl' => h4 l hl l hl' rfl⟩

/-- The three control lines are three Lines. -/
theorem Apart.ctrl_ne (h : Apart cfg) : cfg.oeLine ≠ cfg.ceLine ∧ cfg.oeLine ≠ cfg.weLine ∧
    cfg.ceLine ≠ cfg.weLine := by
  have := h.ctrl
  simp only [Config.ctrlBus, List.nodup_cons, List.mem_cons, not_or, List.not_mem_nil] at this
  tauto

theorem ctrlLineOf_mem (cfg : Config) (c : CtrlLine) : ctrlLineOf cfg c ∈ cfg.ctrlBus := by
  cases c <;> simp [ctrlLineOf, Config.ctrlBus]

theorem mem_allLines {l : Line} : l ∈ cfg.allLines ↔ l ∈ cfg.addrBus ∨ l ∈ cfg.dataBus ∨ l ∈ cfg.ctrlBus := by
  simp [Config.allLines]

theorem busLines_subset {B : BusId} {l : Line} (h : l ∈ busLines cfg B) : l ∈ cfg.allLines := by
  rw [mem_allLines]; cases B <;> simp_all [busLines]

theorem busLines_nodup (h : configLegal cfg = true) (B : BusId) : (busLines cfg B).Nodup := by
  have := configLegal_apart h
  cases B
  · exact this.addr
  · exact this.data
  · exact this.ctrl

end Sys2Proof.Machine
end

