-- ==== Sys2Proof/Laws/Lines.lean ====
section
/-! SUPPORT. What the Line, bus and control-line operations do to modes, latches and the value a bus holds (R90 to
R96), and that they touch nothing but the Line table. -/

namespace Sys2Proof.Machine

variable {s t : State} {k l : Line} {ls : List Line}

/-! ### The table -/

theorem lineCell_line {c : LineCell} (h : lineCell s k = some c) : c.line = k := by
  have := List.find?_some h
  simpa using this

/-- A map over the table that keeps every key acts on the entry found. -/
theorem lineCell_map (f : LineCell → LineCell) (hf : ∀ c, (f c).line = c.line)
    (ht : t.lines = s.lines.map f) (k : Line) : lineCell t k = (lineCell s k).map f := by
  simp [lineCell, ht, List.find?_map, hf]

theorem lineCell_congr (h : t.lines = s.lines) (k : Line) : lineCell t k = lineCell s k := by
  simp [lineCell, h]

theorem latchOf_congr (h : t.lines = s.lines) (k : Line) : latchOf t k = latchOf s k := by
  simp [latchOf, lineCell_congr h]

theorem modeOf_congr (h : t.lines = s.lines) (k : Line) : modeOf t k = modeOf s k := by
  simp [modeOf, lineCell_congr h]

theorem hasLine_congr (h : t.lines = s.lines) (k : Line) : hasLine t k = hasLine s k := by
  simp [hasLine, lineCell_congr h]

@[simp] theorem modeOf_goTo (n : Fin 11) (s : State) (l : Line) : modeOf (goTo n s) l = modeOf s l := rfl

@[simp] theorem latchOf_goTo (n : Fin 11) (s : State) (l : Line) : latchOf (goTo n s) l = latchOf s l := rfl

@[simp] theorem modeOf_advance (s : State) (l : Line) : modeOf (advance s) l = modeOf s l := rfl

@[simp] theorem latchOf_advance (s : State) (l : Line) : latchOf (advance s) l = latchOf s l := rfl

theorem hasLine_iff_mode : hasLine s k = true ↔ ∃ m, modeOf s k = some m := by
  simp [hasLine, modeOf, Option.isSome_iff_exists]

theorem hasLine_iff_latch : hasLine s k = true ↔ ∃ b, latchOf s k = some b := by
  rw [← Option.isSome_iff_exists]; simp [hasLine, latchOf]

/-- A Line the table lists is one the block holds. -/
theorem hasLine_of_mem (h : k ∈ s.lines.map LineCell.line) : hasLine s k = true := by
  obtain ⟨c, hc, rfl⟩ := List.mem_map.1 h
  simp only [hasLine, lineCell, List.find?_isSome]
  exact ⟨c, hc, by simp⟩

/-- In a table without repeats every entry is the one found under its Line. -/
theorem lineCell_getElem (hn : (s.lines.map LineCell.line).Nodup) (i : Nat) (hi : i < s.lines.length) :
    lineCell s (s.lines[i]).line = some s.lines[i] := by
  have hm : hasLine s (s.lines[i]).line = true :=
    hasLine_of_mem (List.mem_map_of_mem (List.getElem_mem hi))
  obtain ⟨c, hc⟩ := Option.isSome_iff_exists.1 hm
  rw [hc]
  obtain ⟨j, hj, rfl⟩ := List.getElem_of_mem (List.mem_of_find?_eq_some hc)
  have hl := lineCell_line hc
  have : j = i := by
    have h := (List.nodup_iff_injective_get.1 hn)
    have := @h ⟨j, by simpa using hj⟩ ⟨i, by simpa using hi⟩ (by simpa using hl)
    simpa using this
  subst this; rfl

/-- A table without repeats is known by its Lines, their modes and their latches. -/
theorem lines_ext (hk : t.lines.map LineCell.line = s.lines.map LineCell.line)
    (hn : (s.lines.map LineCell.line).Nodup) (hm : ∀ l, modeOf t l = modeOf s l)
    (hl : ∀ l, latchOf t l = latchOf s l) : t.lines = s.lines := by
  have hlen : t.lines.length = s.lines.length := by simpa using congrArg List.length hk
  refine List.ext_getElem hlen fun i h1 h2 => ?_
  have hline : (t.lines[i]).line = (s.lines[i]).line := by
    have := List.getElem_of_eq hk (i := i) (by simpa using h1)
    simpa using this
  have e1 := lineCell_getElem (s := t) (hk ▸ hn) i h1
  have e2 := lineCell_getElem hn i h2
  rw [hline] at e1
  have m := hm (s.lines[i]).line
  have b := hl (s.lines[i]).line
  simp only [modeOf, latchOf, e1, e2, Option.map_some, Option.some.injEq] at m b
  cases h : t.lines[i]; cases h' : s.lines[i]; simp_all

/-! ### One Line -/

theorem lineCell_setLine (l : Line) (b : Bool) (s : State) (k : Line) :
    lineCell (setLine l b s) k = (lineCell s k).map fun c => if c.line = l then { c with latch := b } else c :=
  lineCell_map _ (fun c => by split <;> rfl) rfl k

theorem lineCell_configureLine (l : Line) (md : Mode) (s : State) (k : Line) :
    lineCell (configureLine l md s) k = (lineCell s k).map fun c => if c.line = l then { c with mode := md } else c :=
  lineCell_map _ (fun c => by split <;> rfl) rfl k

/-- R91: setting a Line keeps every mode. -/
@[simp] theorem modeOf_setLine (l : Line) (b : Bool) (s : State) (k : Line) :
    modeOf (setLine l b s) k = modeOf s k := by
  simp only [modeOf, lineCell_setLine, Option.map_map]
  congr 1; funext c; simp only [Function.comp]; split <;> rfl

/-- R91: setting a Line writes its latch and no other. -/
theorem latchOf_setLine (l : Line) (b : Bool) (s : State) (k : Line) :
    latchOf (setLine l b s) k = if k = l then (latchOf s k).map fun _ => b else latchOf s k := by
  simp only [latchOf, lineCell_setLine, Option.map_map]
  cases h : lineCell s k with
  | none => simp
  | some c =>
    have hk := lineCell_line h
    by_cases hl : k = l <;> simp [hk, hl]

@[simp] theorem latchOf_setLine_ne (b : Bool) (s : State) (h : k ≠ l) :
    latchOf (setLine l b s) k = latchOf s k := by simp [latchOf_setLine, h]

theorem latchOf_setLine_self (b : Bool) (h : hasLine s l = true) : latchOf (setLine l b s) l = some b := by
  obtain ⟨c, hc⟩ := hasLine_iff_latch.1 h
  simp [latchOf_setLine, hc]

/-- R90: configuring a Line keeps every latch. -/
@[simp] theorem latchOf_configureLine (l : Line) (md : Mode) (s : State) (k : Line) :
    latchOf (configureLine l md s) k = latchOf s k := by
  simp only [latchOf, lineCell_configureLine, Option.map_map]
  congr 1; funext c; simp only [Function.comp]; split <;> rfl

/-- R90: configuring a Line writes its mode and no other. -/
theorem modeOf_configureLine (l : Line) (md : Mode) (s : State) (k : Line) :
    modeOf (configureLine l md s) k = if k = l then (modeOf s k).map fun _ => md else modeOf s k := by
  simp only [modeOf, lineCell_configureLine, Option.map_map]
  cases h : lineCell s k with
  | none => simp
  | some c =>
    have hk := lineCell_line h
    by_cases hl : k = l <;> simp [hk, hl]

@[simp] theorem hasLine_setLine (l : Line) (b : Bool) (s : State) (k : Line) :
    hasLine (setLine l b s) k = hasLine s k := by simp [hasLine, lineCell_setLine]

@[simp] theorem hasLine_configureLine (l : Line) (md : Mode) (s : State) (k : Line) :
    hasLine (configureLine l md s) k = hasLine s k := by simp [hasLine, lineCell_configureLine]

/-- R90, R91: the table keeps its Lines, in its order. -/
@[simp] theorem keys_setLine (l : Line) (b : Bool) (s : State) :
    (setLine l b s).lines.map LineCell.line = s.lines.map LineCell.line := by
  simp only [setLine, List.map_map]
  congr 1; funext c; simp only [Function.comp]; split <;> rfl

@[simp] theorem keys_configureLine (l : Line) (md : Mode) (s : State) :
    (configureLine l md s).lines.map LineCell.line = s.lines.map LineCell.line := by
  simp only [configureLine, List.map_map]
  congr 1; funext c; simp only [Function.comp]; split <;> rfl

/-- R91: only the table changes. -/
theorem setLine_eq (l : Line) (b : Bool) (s : State) :
    setLine l b s = { s with lines := (setLine l b s).lines } := rfl

/-- R90: only the table changes. -/
theorem configureLine_eq (l : Line) (md : Mode) (s : State) :
    configureLine l md s = { s with lines := (configureLine l md s).lines } := rfl

/-! ### A bus, configured -/

/-- R93: only the table changes. -/
theorem configureBus_eq (md : Mode) (ls : List Line) (s : State) :
    configureBus md ls s = { s with lines := (configureBus md ls s).lines } := by
  induction ls generalizing s with
  | nil => rfl
  | cons l ls ih => rw [configureBus, ih (configureLine l md s)]; rfl

@[simp] theorem configureBus_cfg (md : Mode) (ls : List Line) (s : State) :
    (configureBus md ls s).cfg = s.cfg := by rw [configureBus_eq]

@[simp] theorem configureBus_tc (md : Mode) (ls : List Line) (s : State) :
    (configureBus md ls s).tc = s.tc := by rw [configureBus_eq]

@[simp] theorem configureBus_sb (md : Mode) (ls : List Line) (s : State) :
    (configureBus md ls s).sb = s.sb := by rw [configureBus_eq]

@[simp] theorem configureBus_armed (md : Mode) (ls : List Line) (s : State) :
    (configureBus md ls s).armed = s.armed := by rw [configureBus_eq]

@[simp] theorem configureBus_ms (md : Mode) (ls : List Line) (s : State) :
    (configureBus md ls s).ms = s.ms := by rw [configureBus_eq]

@[simp] theorem configureBus_hr (md : Mode) (ls : List Line) (s : State) :
    (configureBus md ls s).hr = s.hr := by rw [configureBus_eq]

@[simp] theorem configureBus_txlog (md : Mode) (ls : List Line) (s : State) :
    (configureBus md ls s).txlog = s.txlog := by rw [configureBus_eq]

@[simp] theorem configureBus_rxq (md : Mode) (ls : List Line) (s : State) :
    (configureBus md ls s).rxq = s.rxq := by rw [configureBus_eq]

@[simp] theorem configureBus_mem (md : Mode) (ls : List Line) (s : State) :
    (configureBus md ls s).mem = s.mem := by rw [configureBus_eq]

@[simp] theorem configureBus_stim (md : Mode) (ls : List Line) (s : State) :
    (configureBus md ls s).stim = s.stim := by rw [configureBus_eq]

@[simp] theorem configureBus_draws (md : Mode) (ls : List Line) (s : State) :
    (configureBus md ls s).draws = s.draws := by rw [configureBus_eq]

@[simp] theorem configureBus_result (md : Mode) (ls : List Line) (s : State) :
    (configureBus md ls s).result = s.result := by rw [configureBus_eq]

@[simp] theorem keys_configureBus (md : Mode) (ls : List Line) (s : State) :
    (configureBus md ls s).lines.map LineCell.line = s.lines.map LineCell.line := by
  induction ls generalizing s with
  | nil => rfl
  | cons l ls ih => simp [configureBus, ih]

@[simp] theorem latchOf_configureBus (md : Mode) (ls : List Line) (s : State) (k : Line) :
    latchOf (configureBus md ls s) k = latchOf s k := by
  induction ls generalizing s with
  | nil => rfl
  | cons l ls ih => simp [configureBus, ih]

/-- R93: the Lines of the bus get the mode, the others keep theirs. -/
theorem modeOf_configureBus (md : Mode) (ls : List Line) (s : State) (k : Line) :
    modeOf (configureBus md ls s) k = if k ∈ ls then (modeOf s k).map fun _ => md else modeOf s k := by
  induction ls generalizing s with
  | nil => simp [configureBus]
  | cons l ls ih =>
    rw [configureBus, ih]
    by_cases h1 : k ∈ ls <;> by_cases h2 : k = l <;>
      simp [h1, h2, modeOf_configureLine, Function.comp_def]

/-! ### A bus, written -/

/-- R94: only the table changes. -/
theorem writeBusFrom_eq (v i : Nat) (ls : List Line) (s : State) :
    writeBusFrom v i ls s = { s with lines := (writeBusFrom v i ls s).lines } := by
  induction ls generalizing s i with
  | nil => rfl
  | cons l ls ih => rw [writeBusFrom, ih (i + 1) (setLine l (v.testBit i) s)]; rfl

theorem writeBus_eq (ls : List Line) (v : Nat) (s : State) :
    writeBus ls v s = { s with lines := (writeBus ls v s).lines } := writeBusFrom_eq v 0 ls s

@[simp] theorem writeBus_cfg (ls : List Line) (v : Nat) (s : State) : (writeBus ls v s).cfg = s.cfg := by
  rw [writeBus_eq]

@[simp] theorem writeBus_tc (ls : List Line) (v : Nat) (s : State) : (writeBus ls v s).tc = s.tc := by
  rw [writeBus_eq]

@[simp] theorem writeBus_sb (ls : List Line) (v : Nat) (s : State) : (writeBus ls v s).sb = s.sb := by
  rw [writeBus_eq]

@[simp] theorem writeBus_armed (ls : List Line) (v : Nat) (s : State) : (writeBus ls v s).armed = s.armed := by
  rw [writeBus_eq]

@[simp] theorem writeBus_ms (ls : List Line) (v : Nat) (s : State) : (writeBus ls v s).ms = s.ms := by
  rw [writeBus_eq]

@[simp] theorem writeBus_hr (ls : List Line) (v : Nat) (s : State) : (writeBus ls v s).hr = s.hr := by
  rw [writeBus_eq]

@[simp] theorem writeBus_txlog (ls : List Line) (v : Nat) (s : State) : (writeBus ls v s).txlog = s.txlog := by
  rw [writeBus_eq]

@[simp] theorem writeBus_rxq (ls : List Line) (v : Nat) (s : State) : (writeBus ls v s).rxq = s.rxq := by
  rw [writeBus_eq]

@[simp] theorem writeBus_mem (ls : List Line) (v : Nat) (s : State) : (writeBus ls v s).mem = s.mem := by
  rw [writeBus_eq]

@[simp] theorem writeBus_stim (ls : List Line) (v : Nat) (s : State) : (writeBus ls v s).stim = s.stim := by
  rw [writeBus_eq]

@[simp] theorem writeBus_draws (ls : List Line) (v : Nat) (s : State) : (writeBus ls v s).draws = s.draws := by
  rw [writeBus_eq]

@[simp] theorem writeBus_result (ls : List Line) (v : Nat) (s : State) : (writeBus ls v s).result = s.result := by
  rw [writeBus_eq]

@[simp] theorem keys_writeBusFrom (v i : Nat) (ls : List Line) (s : State) :
    (writeBusFrom v i ls s).lines.map LineCell.line = s.lines.map LineCell.line := by
  induction ls generalizing s i with
  | nil => rfl
  | cons l ls ih => simp [writeBusFrom, ih]

@[simp] theorem keys_writeBus (v : Nat) (ls : List Line) (s : State) :
    (writeBus ls v s).lines.map LineCell.line = s.lines.map LineCell.line := keys_writeBusFrom v 0 ls s

@[simp] theorem modeOf_writeBusFrom (v i : Nat) (ls : List Line) (s : State) (k : Line) :
    modeOf (writeBusFrom v i ls s) k = modeOf s k := by
  induction ls generalizing s i with
  | nil => rfl
  | cons l ls ih => simp [writeBusFrom, ih]

@[simp] theorem modeOf_writeBus (v : Nat) (ls : List Line) (s : State) (k : Line) :
    modeOf (writeBus ls v s) k = modeOf s k := modeOf_writeBusFrom v 0 ls s k

theorem latchOf_writeBusFrom_ne (v i : Nat) (s : State) (h : k ∉ ls) :
    latchOf (writeBusFrom v i ls s) k = latchOf s k := by
  induction ls generalizing s i with
  | nil => rfl
  | cons l ls ih =>
    rw [List.mem_cons, not_or] at h
    rw [writeBusFrom, ih _ _ h.2, latchOf_setLine_ne _ _ h.1]

/-- R94: a Line outside the bus keeps its latch. -/
theorem latchOf_writeBus_ne (v : Nat) (s : State) (h : k ∉ ls) : latchOf (writeBus ls v s) k = latchOf s k :=
  latchOf_writeBusFrom_ne v 0 s h

theorem latchOf_writeBusFrom_get (v i : Nat) (hn : ls.Nodup) (hl : ∀ l ∈ ls, hasLine s l = true) (j : Nat)
    (hj : j < ls.length) : latchOf (writeBusFrom v i ls s) ls[j] = some (v.testBit (i + j)) := by
  induction ls generalizing s i j with
  | nil => simp at hj
  | cons l ls ih =>
    rw [List.nodup_cons] at hn
    cases j with
    | zero =>
      simp only [writeBusFrom, List.getElem_cons_zero, Nat.add_zero]
      rw [latchOf_writeBusFrom_ne _ _ _ hn.1, latchOf_setLine_self _ (hl l (by simp))]
    | succ j =>
      simp only [writeBusFrom, List.getElem_cons_succ]
      rw [ih (i + 1) hn.2 (fun l' h' => by simpa using hl l' (by simp [h'])) j (by simpa using hj)]
      congr 2; omega

/-- R94: bit `j` of the value goes to the Line at index `j`. -/
theorem latchOf_writeBus_get (v : Nat) (hn : ls.Nodup) (hl : ∀ l ∈ ls, hasLine s l = true) (j : Nat)
    (hj : j < ls.length) : latchOf (writeBus ls v s) ls[j] = some (v.testBit j) := by
  rw [writeBus, latchOf_writeBusFrom_get v 0 hn hl j hj, Nat.zero_add]

/-! ### The value a bus holds -/

theorem latchValueFrom_congr (h : ∀ l ∈ ls, latchOf t l = latchOf s l) (i : Nat) :
    latchValueFrom t i ls = latchValueFrom s i ls := by
  induction ls generalizing i with
  | nil => rfl
  | cons l ls ih =>
    simp only [latchValueFrom]
    rw [h l (by simp), ih (fun l' h' => h l' (by simp [h']))]

/-- The value of a bus depends on its latches only. -/
theorem latchValue_congr (h : ∀ l ∈ ls, latchOf t l = latchOf s l) : latchValue t ls = latchValue s ls :=
  latchValueFrom_congr h 0

theorem latchValueFrom_of_bits (v i : Nat)
    (h : ∀ j (hj : j < ls.length), latchOf t ls[j] = some (v.testBit (i + j))) :
    latchValueFrom t i ls = v / 2 ^ i % 2 ^ ls.length * 2 ^ i := by
  induction ls generalizing i with
  | nil => simp [latchValueFrom, Nat.mod_one]
  | cons l ls ih =>
    have h0 : latchOf t l = some (v.testBit i) := h 0 (by simp)
    have ht := ih (i + 1) fun j hj => by
      have := h (j + 1) (by simpa using hj)
      rw [List.getElem_cons_succ] at this
      rw [this]; congr 2; omega
    have hb : (if some (v.testBit i) = some true then 2 ^ i else 0) = v / 2 ^ i % 2 * 2 ^ i := by
      rw [Nat.testBit_eq_decide_div_mod_eq]
      rcases Nat.mod_two_eq_zero_or_one (v / 2 ^ i) with h | h <;> simp [h]
    have hm : v / 2 ^ i % 2 ^ (ls.length + 1) = v / 2 ^ i % 2 + 2 * (v / 2 ^ (i + 1) % 2 ^ ls.length) := by
      rw [Nat.pow_succ' (n := ls.length), Nat.mod_mul, Nat.div_div_eq_div_mul, ← Nat.pow_succ]
    rw [latchValueFrom, ht, h0, List.length_cons, hb, hm, Nat.pow_succ]
    ring

/-- R94: after `BUS.WRITE` the bus latches hold `v mod 2^W`. -/
theorem latchValue_writeBus (v : Nat) (hn : ls.Nodup) (hl : ∀ l ∈ ls, hasLine s l = true) :
    latchValue (writeBus ls v s) ls = v % 2 ^ ls.length := by
  have := latchValueFrom_of_bits (t := writeBus ls v s) v 0 fun j hj => by
    rw [latchOf_writeBus_get v hn hl j hj, Nat.zero_add]
  simpa [latchValue] using this

theorem latchValueFrom_lt (i : Nat) (ls : List Line) : latchValueFrom s i ls < 2 ^ (i + ls.length) ∧
    2 ^ i ∣ latchValueFrom s i ls := by
  induction ls generalizing i with
  | nil => simp [latchValueFrom]
  | cons l ls ih =>
    obtain ⟨h1, h2⟩ := ih (i + 1)
    rw [latchValueFrom, List.length_cons]
    have e : i + (ls.length + 1) = i + 1 + ls.length := by omega
    rw [e]
    have hd : 2 ^ i ∣ latchValueFrom s (i + 1) ls := (Nat.pow_dvd_pow 2 (Nat.le_succ i)).trans h2
    refine ⟨?_, ?_⟩
    · split
      · obtain ⟨q, hq⟩ := h2
        obtain ⟨p, hp⟩ : ∃ p, 2 ^ (i + 1 + ls.length) = 2 ^ (i + 1) * p := ⟨2 ^ ls.length, by rw [pow_add]⟩
        rw [hq, hp] at h1 ⊢
        have hqp : q < p := Nat.lt_of_mul_lt_mul_left h1
        have : 2 ^ (i + 1) * (q + 1) ≤ 2 ^ (i + 1) * p := Nat.mul_le_mul_left _ hqp
        rw [Nat.pow_succ] at this ⊢
        have hpos : 0 < 2 ^ i := by positivity
        nlinarith
      · simpa using h1
    · split
      · exact (Nat.dvd_add_right (dvd_refl _)).2 hd
      · simpa using hd

/-- R77: a bus of width `W` holds a value below `2^W`. -/
theorem latchValue_lt (s : State) (ls : List Line) : latchValue s ls < 2 ^ ls.length := by
  simpa [latchValue] using (latchValueFrom_lt (s := s) 0 ls).1

/-! ### Presence -/

/-- When every Line of a bus is present, the bus operation runs. -/
theorem onBus_of_all {α : Type} (h : ∀ l ∈ ls, hasLine s l = true) (o : Outcome α) : onBus s ls o = o := by
  have : missingLine s ls = none := by
    induction ls with
    | nil => rfl
    | cons l ls ih => simp [missingLine, h l (by simp), ih fun l' h' => h l' (by simp [h'])]
  simp [onBus, this]

theorem onLine_of_has {α : Type} (h : hasLine s l = true) (o : Outcome α) : onLine s l o = o := by
  simp [onLine, h]

/-! ### Control lines -/

@[simp] theorem modeOf_driveCtrl (x : CtrlState) (s : State) (k : Line) :
    modeOf (driveCtrl x s) k = modeOf s k := by simp [driveCtrl]

@[simp] theorem keys_driveCtrl (x : CtrlState) (s : State) :
    (driveCtrl x s).lines.map LineCell.line = s.lines.map LineCell.line := by simp [driveCtrl]

@[simp] theorem hasLine_driveCtrl (x : CtrlState) (s : State) (k : Line) :
    hasLine (driveCtrl x s) k = hasLine s k := by simp [driveCtrl]

/-- R96: only the driven line's latch changes. -/
theorem latchOf_driveCtrl_ne (x : CtrlState) (s : State) (h : k ≠ ctrlLineOf s.cfg x.owner) :
    latchOf (driveCtrl x s) k = latchOf s k := by simp [driveCtrl, h]

/-- R96: the driven line gets the state's latch bit. -/
theorem latchOf_driveCtrl_self (x : CtrlState) (h : hasLine s (ctrlLineOf s.cfg x.owner) = true) :
    latchOf (driveCtrl x s) (ctrlLineOf s.cfg x.owner) = some (levelBit s.cfg x) := latchOf_setLine_self _ h

theorem driveCtrl_eq (x : CtrlState) (s : State) :
    driveCtrl x s = { s with lines := (driveCtrl x s).lines } := rfl

end Sys2Proof.Machine
end

