-- ==== Sys2Proof/Laws/Reads.lean ====
section
/-! SUPPORT. What reading a Line or a bus can answer (R92, R95, R64): a value below `2^W`, with nothing changed but
the number of draws; and the addressed cell while the device drives the Data Bus. -/

namespace Sys2Proof.Machine

variable {s : State} {l : Line} {ls : List Line}

/-- Every Line of the list is one the block holds, in an input mode. -/
def allInputs (s : State) (ls : List Line) : Prop := ∀ l ∈ ls, ∃ md, modeOf s l = some md ∧ md.dir = .input

/-- Reading depends on the Line table, the configuration and the cells, not on the number of draws. -/
theorem modeOf_draws (s : State) (n : Nat) (l : Line) : modeOf { s with draws := n } l = modeOf s l := rfl

theorem allInputs_draws (n : Nat) (h : allInputs s ls) : allInputs { s with draws := n } ls := h

/-- R92: a Line in an input mode answers a bit, and at most one value is drawn. -/
theorem getLine_input {md : Mode} (h : modeOf s l = some md) (hd : md.dir = .input) :
    ∃ b k, getLine l s = .next (b, { s with draws := s.draws + k }) := by
  simp only [getLine, h, hd, pinIn, drawBit]
  rw [if_neg (by decide)]
  split
  · split
    · exact ⟨_, 0, rfl⟩
    · exact ⟨_, 1, rfl⟩
  · exact ⟨_, 1, rfl⟩

/-- R92, D24: a Line in an output mode is refused. -/
theorem getLine_output {md : Mode} (h : modeOf s l = some md) (hd : md.dir = .output) :
    getLine l s = .refused (.getOnOutput l) := by simp [getLine, h, hd]

theorem readBusFrom_inputs (i v : Nat) (h : allInputs s ls) :
    ∃ x k, x < 2 ^ ls.length ∧ readBusFrom i ls v s = .next (v + x * 2 ^ i, { s with draws := s.draws + k }) := by
  induction ls generalizing i v s with
  | nil => exact ⟨0, 0, by simp, by simp [readBusFrom]⟩
  | cons l ls ih =>
    obtain ⟨md, hm, hd⟩ := h l (by simp)
    obtain ⟨b, k, hg⟩ := getLine_input hm hd
    obtain ⟨x, k', hx, hr⟩ := ih (s := { s with draws := s.draws + k }) (i + 1) (if b then v + 2 ^ i else v)
      fun l' h' => h l' (by simp [h'])
    refine ⟨(if b then 1 else 0) + 2 * x, k + k', ?_, ?_⟩
    · rw [List.length_cons, Nat.pow_succ]; split <;> omega
    · rw [readBusFrom, hg, andThen_next, hr, Nat.add_assoc, Nat.pow_succ]
      congr 2
      cases b <;> simp <;> ring

/-- R95: a bus of input Lines reads as some value below `2^W`; nothing changes but the number of draws. -/
theorem readBus_inputs (h : allInputs s ls) :
    ∃ v k, v < 2 ^ ls.length ∧ readBus ls s = .next (v, { s with draws := s.draws + k }) := by
  obtain ⟨x, k, hx, hr⟩ := readBusFrom_inputs 0 0 h
  exact ⟨x, k, hx, by simpa [readBus] using hr⟩

/-- R64: on Line `i` of the Data Bus a driving device shows bit `i` of the addressed cell. -/
theorem getLine_driving {md : Mode} {i : Nat} (h : modeOf s l = some md) (hd : md.dir = .input)
    (hi : lineIndexFrom l 0 s.cfg.dataBus = some i) (hdrv : driving s = true) :
    getLine l s = .next ((memRead s.mem (latchValue s s.cfg.addrBus)).toNat.testBit i, s) := by
  simp only [getLine, h, hd, pinIn, hi, hdrv, if_true]
  rw [if_neg (by decide)]

theorem readBusFrom_driving (i v : Nat) (h : allInputs s ls) (hdrv : driving s = true)
    (hi : ∀ j (hj : j < ls.length), lineIndexFrom ls[j] 0 s.cfg.dataBus = some (i + j)) :
    readBusFrom i ls v s = .next
      (v + (memRead s.mem (latchValue s s.cfg.addrBus)).toNat / 2 ^ i % 2 ^ ls.length * 2 ^ i, s) := by
  induction ls generalizing i v with
  | nil => simp [readBusFrom, Nat.mod_one]
  | cons l ls ih =>
    obtain ⟨md, hm, hd⟩ := h l (by simp)
    rw [readBusFrom, getLine_driving hm hd (hi 0 (by simp)) hdrv, andThen_next,
      ih (i + 1) _ (fun l' h' => h l' (by simp [h'])) fun j hj => by
        have := hi (j + 1) (by simpa using hj)
        rw [List.getElem_cons_succ] at this; rw [this]; congr 1; omega]
    congr 2
    generalize (memRead s.mem (latchValue s s.cfg.addrBus)).toNat = c
    have hb : (if c.testBit i = true then v + 2 ^ i else v) = v + c / 2 ^ i % 2 * 2 ^ i := by
      rw [Nat.testBit_eq_decide_div_mod_eq]
      rcases Nat.mod_two_eq_zero_or_one (c / 2 ^ i) with h | h <;> simp [h]
    have hm : c / 2 ^ i % 2 ^ (ls.length + 1) = c / 2 ^ i % 2 + 2 * (c / 2 ^ (i + 1) % 2 ^ ls.length) := by
      rw [Nat.pow_succ' (n := ls.length), Nat.mod_mul, Nat.div_div_eq_div_mul, ← Nat.pow_succ]
    rw [Nat.add_zero, hb, List.length_cons, hm, Nat.pow_succ]
    ring

/-- In a list without repeats the Line at index `j` has index `j`. -/
theorem lineIndexFrom_get (i : Nat) (hn : ls.Nodup) (j : Nat) (hj : j < ls.length) :
    lineIndexFrom ls[j] i ls = some (i + j) := by
  induction ls generalizing i j with
  | nil => simp at hj
  | cons x ls ih =>
    rw [List.nodup_cons] at hn
    cases j with
    | zero => simp [lineIndexFrom]
    | succ j =>
      have hx : ¬ x = ls[j]'(by simpa using hj) := fun h => hn.1 (h ▸ List.getElem_mem _)
      simp only [List.getElem_cons_succ, lineIndexFrom, if_neg hx]
      rw [ih (i + 1) hn.2 j (by simpa using hj)]; congr 1; omega

/-- R95, R64: while the device drives, the Data Bus reads as the addressed cell, cut to the bus width, and nothing
changes. -/
theorem readBus_driving (hn : s.cfg.dataBus.Nodup) (h : allInputs s s.cfg.dataBus) (hdrv : driving s = true) :
    readBus s.cfg.dataBus s = .next
      ((memRead s.mem (latchValue s s.cfg.addrBus)).toNat % 2 ^ s.cfg.dataBus.length, s) := by
  rw [readBus, readBusFrom_driving 0 0 h hdrv fun j hj => by
    simpa using lineIndexFrom_get 0 hn j hj]
  simp

/-- If a Line read answers, nothing changed but the number of draws. -/
theorem getLine_eq_next {r : Bool × State} (h : getLine l s = .next r) :
    ∃ k, r.2 = { s with draws := s.draws + k } := by
  unfold getLine at h
  split at h
  · cases h
  · split at h
    · cases h
    · cases h
      unfold pinIn drawBit
      split
      · split
        · exact ⟨0, rfl⟩
        · exact ⟨1, rfl⟩
      · exact ⟨1, rfl⟩

/-- If a bus read answers, nothing changed but the number of draws. -/
theorem readBusFrom_eq_next {i v : Nat} {r : Nat × State} (h : readBusFrom i ls v s = .next r) :
    ∃ k, r.2 = { s with draws := s.draws + k } := by
  induction ls generalizing i v s with
  | nil => cases h; exact ⟨0, rfl⟩
  | cons l ls ih =>
    obtain ⟨x, hx, h⟩ := andThen_eq_next h
    obtain ⟨k, hk⟩ := getLine_eq_next hx
    obtain ⟨k', h'⟩ := ih h
    rw [hk] at h'
    exact ⟨k + k', by rw [h']; simp [Nat.add_assoc]⟩

theorem readBus_eq_next {r : Nat × State} (h : readBus ls s = .next r) :
    ∃ k, r.2 = { s with draws := s.draws + k } := readBusFrom_eq_next h

end Sys2Proof.Machine
end

