-- ==== Sys2Proof/Laws/Relay.lean ====
section
/-! SUPPORT. What the relay can answer (R125, R108, R126). -/

namespace Sys2Proof.Machine

/-- R125: a free register takes the byte, a full one refuses it without any effect. -/
theorem trySend_free {s : State} (b : Byte) (h : s.hr = none) :
    trySend b s = (true, { s with hr := some b, txlog := s.txlog ++ [b] }) := by simp [trySend, txe, h]

theorem trySend_busy {s : State} (b c : Byte) (h : s.hr = some c) : trySend b s = (false, s) := by
  simp [trySend, txe, h]

/-- R108: accepted, the rest of the phase runs. -/
theorem offer_free {s : State} (b : Byte) (go : State → State) (h : s.hr = none) :
    offer b s go = go { s with hr := some b, txlog := s.txlog ++ [b] } := by simp [offer, trySend_free b h]

/-- R108: refused, the tick is abandoned. -/
theorem offer_busy {s : State} (b c : Byte) (go : State → State) (h : s.hr = some c) : offer b s go = s := by
  simp [offer, trySend_busy b c h]

/-- Everything an offer can do. -/
theorem offer_cases (b : Byte) (s : State) (go : State → State) :
    (s.hr = none ∧ offer b s go = go { s with hr := some b, txlog := s.txlog ++ [b] }) ∨
    (∃ c, s.hr = some c ∧ offer b s go = s) := by
  cases h : s.hr with
  | none => exact .inl ⟨rfl, offer_free b go h⟩
  | some c => exact .inr ⟨c, rfl, offer_busy b c go h⟩

/-- R125 by name: the answer is the result. -/
theorem sendByName_free {s : State} (b : Byte) (h : s.hr = none) : sendByName b s =
    { s with hr := some b, txlog := s.txlog ++ [b], result := .accepted true } := by
  simp [sendByName, trySend_free b h]

theorem sendByName_busy {s : State} (b c : Byte) (h : s.hr = some c) : sendByName b s =
    { s with result := .accepted false } := by simp [sendByName, trySend_busy b c h]

/-- R126: no pending byte, no answer. -/
theorem recv_nil {s : State} (h : s.rxq = []) : recv s = none := by simp [recv, h]

/-- R126: the oldest pending byte is consumed. -/
theorem recv_cons {s : State} {b : Byte} {q : List Byte} (h : s.rxq = b :: q) :
    recv s = some (b, { s with rxq := q }) := by simp [recv, h]

/-- R74: `HEXCHAR` of a digit is one of the 16 hex codes. -/
theorem hexChar_mem (n : Nibble) : hexChar n ∈ ([0x30, 0x31, 0x32, 0x33, 0x34, 0x35, 0x36, 0x37, 0x38, 0x39,
    0x61, 0x62, 0x63, 0x64, 0x65, 0x66] : List Byte) := by
  revert n; decide

end Sys2Proof.Machine
end

