-- ==== Sys2Proof/Laws/Sequencer.lean ====
section
/-! SUPPORT. What the phases, the dispatch and one handler invocation can do (R100 to R108, R120). -/

namespace Sys2Proof.Machine

variable {s : State}

@[simp] theorem enterHandler_eq (s : State) : enterHandler s = s := rfl

/-! ### Wiring facts -/

/-- R25: every Line of a bus is present. -/
theorem Wired.has (h : Wired s) {l : Line} (hl : l ∈ s.cfg.allLines) : hasLine s l = true :=
  hasLine_of_mem (h.2 ▸ hl)

theorem Wired.hasBus (h : Wired s) (B : BusId) : ∀ l ∈ busLines s.cfg B, hasLine s l = true :=
  fun _ hl => h.has (busLines_subset hl)

theorem Wired.hasCtrl (h : Wired s) (c : CtrlLine) : hasLine s (ctrlLineOf s.cfg c) = true :=
  h.has (mem_allLines.2 (.inr (.inr (ctrlLineOf_mem _ c))))

theorem Wired.apart (h : Wired s) : Apart s.cfg := configLegal_apart h.1

/-- The output-enable Line is not on the Address Bus. -/
theorem Wired.oe_not_addr (h : Wired s) : s.cfg.oeLine ∉ s.cfg.addrBus := fun hl =>
  h.apart.addr_ctrl _ hl (ctrlLineOf_mem s.cfg .oe)

/-- A state with the same configuration and the same Lines in its table is wired too. -/
theorem Wired.of_keys {t : State} (h : Wired s) (hc : t.cfg = s.cfg)
    (hk : t.lines.map LineCell.line = s.lines.map LineCell.line) : Wired t := by
  refine ⟨hc ▸ h.1, ?_⟩; rw [hk, hc]; exact h.2

/-- R64: whether the device drives depends on the configuration, the modes and the latches. -/
theorem driving_congr {t : State} (hc : t.cfg = s.cfg) (hl : t.lines = s.lines) : driving t = driving s := by
  simp only [driving, hc, modeOf_congr hl, latchOf_congr hl]

theorem DataInputs.of_modes {t : State} (h : DataInputs s) (hc : t.cfg = s.cfg) (hm : SameModes s t) :
    DataInputs t := by
  intro l hl; rw [hm l]; exact h l (hc ▸ hl)

/-! ### Phase 0 -/

/-- The Line table after phase 0 has driven an address. -/
theorem writeAddr_spec (h : Wired s) (a : Nat) :
    latchValue (writeBus s.cfg.addrBus a s) s.cfg.addrBus = a % 2 ^ s.cfg.aw := by
  rw [latchValue_writeBus a h.apart.addr (h.hasBus .addr), configLegal_addrLength h.1]

/-- R102 (1), (3): address driven, outputs enabled. -/
theorem drivenEnabled_spec (h : Wired s) (a : Nat) (t : State)
    (ht : t.lines = (driveCtrl .oeRead (writeBus s.cfg.addrBus a s)).lines) :
    latchValue t s.cfg.addrBus = a % 2 ^ s.cfg.aw ∧
    latchOf t s.cfg.oeLine = some (levelBit s.cfg .oeRead) ∧
    OtherLatches (s.cfg.oeLine :: s.cfg.addrBus) s t ∧ SameModes s t := by
  refine ⟨?_, ?_, ?_, ?_⟩
  · rw [← writeAddr_spec h a]
    refine latchValue_congr fun l hl => ?_
    rw [latchOf_congr ht, latchOf_driveCtrl_ne]
    rintro rfl
    exact h.oe_not_addr (by simpa [ctrlLineOf, CtrlState.owner] using hl)
  · have := latchOf_driveCtrl_self (s := writeBus s.cfg.addrBus a s) .oeRead
      (hasLine_of_mem (by
        rw [keys_writeBus, h.2]
        exact mem_allLines.2 (.inr (.inr (by rw [writeBus_cfg]; exact ctrlLineOf_mem _ _)))))
    rw [latchOf_congr ht]; simpa [ctrlLineOf, CtrlState.owner] using this
  · intro l hl
    rw [List.mem_cons, not_or] at hl
    rw [latchOf_congr ht, latchOf_driveCtrl_ne, latchOf_writeBus_ne a s hl.2]
    simpa [ctrlLineOf, CtrlState.owner] using hl.1
  · intro l; rw [modeOf_congr ht, modeOf_driveCtrl, modeOf_writeBus]

/-- R102 without a separator. -/
theorem phase0_silent (a : Nat) (s : State) :
    phase0 false a s = { s with
      lines := (driveCtrl .oeRead (writeBus s.cfg.addrBus a s)).lines, tc := (s.tc + 1) % 2 ^ s.cfg.cw } := by
  ext1 <;> simp [phase0]

/-- R102 with an accepted separator. -/
theorem phase0_accepted (a : Nat) (h : s.hr = none) :
    phase0 true a s = { s with
      lines := (driveCtrl .oeRead (writeBus s.cfg.addrBus a s)).lines, tc := (s.tc + 1) % 2 ^ s.cfg.cw,
      hr := some codeNl, txlog := s.txlog ++ [codeNl] } := by
  rw [phase0, if_pos rfl, offer_free _ _ (by simpa using h)]
  ext1 <;> simp [driveCtrl, setLine]

/-- R102, R108 with a refused separator. -/
theorem phase0_refused (a : Nat) {c : Byte} (h : s.hr = some c) :
    phase0 true a s = { s with lines := (writeBus s.cfg.addrBus a s).lines } := by
  rw [phase0, if_pos rfl, offer_busy _ c _ (by simpa using h)]
  ext1 <;> simp

/-! ### Phase 1 -/

/-- R103: phase 1 of any state whose Data Bus reads. -/
theorem execSeqP1_of_read (a : Nat) {v k : Nat}
    (h : readBus s.cfg.dataBus s = .next (v, { s with draws := s.draws + k })) :
    execSeqP1 a s = .next (phase1Emit { s with draws := s.draws + k, sb := BitVec.ofNat 8 v }) := by
  simp [execSeqP1, h]

/-- R95, R64: what the sample of phase 1 is. -/
theorem sample_cases (hw : Wired s) (hd : DataInputs s) :
    ∃ v k, readBus s.cfg.dataBus s = .next (v, { s with draws := s.draws + k }) ∧ v < 2 ^ s.cfg.dw ∧
      (driving s = true → k = 0 ∧ v = (memRead s.mem (latchValue s s.cfg.addrBus)).toNat % 2 ^ s.cfg.dw) := by
  by_cases hdr : driving s = true
  · refine ⟨_, 0, readBus_driving hw.apart.data hd hdr, ?_, fun _ => ⟨rfl, ?_⟩⟩
    · rw [configLegal_dataLength hw.1]; exact Nat.mod_lt _ (by positivity)
    · rw [configLegal_dataLength hw.1]
  · obtain ⟨v, k, hv, hr⟩ := readBus_inputs hd
    exact ⟨v, k, hr, by rwa [configLegal_dataLength hw.1] at hv, fun h => absurd h hdr⟩

/-- R103 after the sample, the relay free. -/
theorem phase1Emit_accepted (h : s.hr = none) :
    phase1Emit s = { s with
      lines := (driveCtrl .oeOff s).lines, tc := (s.tc + 1) % 2 ^ s.cfg.cw,
      hr := some (hexChar (highNibble s.sb)), txlog := s.txlog ++ [hexChar (highNibble s.sb)] } := by
  rw [phase1Emit, offer_free _ _ (by simpa using h)]; rfl

/-- R103, R108 after the sample, the relay busy. -/
theorem phase1Emit_refused {c : Byte} (h : s.hr = some c) :
    phase1Emit s = { s with lines := (driveCtrl .oeOff s).lines } := by
  rw [phase1Emit, offer_busy _ c _ (by simpa using h)]; rfl

/-- R96: output-enable switched off, the other Lines as they were. -/
theorem oeOff_spec (h : Wired s) (t : State) (ht : t.lines = (driveCtrl .oeOff s).lines) :
    latchOf t s.cfg.oeLine = some (levelBit s.cfg .oeOff) ∧ OtherLatches [s.cfg.oeLine] s t ∧ SameModes s t := by
  refine ⟨?_, ?_, ?_⟩
  · rw [latchOf_congr ht]; exact latchOf_driveCtrl_self .oeOff (h.hasCtrl .oe)
  · intro l hl
    rw [latchOf_congr ht, latchOf_driveCtrl_ne]; simpa [ctrlLineOf, CtrlState.owner] using hl
  · intro l; rw [modeOf_congr ht, modeOf_driveCtrl]

/-! ### Dispatch -/

/-- R100, R73: the dispatch runs what the decoder reads from the counter. -/
theorem dispatchTick_decoded (h : s.tc / 4 ≤ 2 ^ s.cfg.aw) :
    dispatchTick s = exec (decodeTcFull s.cfg s.tc) s := by
  have h' : ¬ 2 ^ s.cfg.aw < s.tc / 4 := by omega
  simp only [dispatchTick, decodeTcFull, blockFirst, blockLast, h', if_false]
  split
  · rfl
  · have : s.tc % 4 = 0 ∨ s.tc % 4 = 1 ∨ s.tc % 4 = 2 ∨ s.tc % 4 = 3 := by omega
    rcases this with e | e | e | e <;> simp only [e]
    · by_cases h0 : s.tc / 4 % 16 = 0 <;> simp [h0, exec]
    · rfl
    · rfl
    · by_cases h0 : s.tc / 4 % 16 = 15 <;> simp [h0, exec]

/-- R156: a serviced tick of the FULL variant. -/
theorem timerTick_full (ha : s.armed = true) (hv : s.cfg.variant = .full) (h : s.tc / 4 ≤ 2 ^ s.cfg.aw) :
    execTimerTick s = exec (decodeTcFull s.cfg s.tc) s := by
  simp [execTimerTick, ha, hv, execSeqTick, dispatchTick_decoded h]

/-- R156: a serviced tick of the REDUCED variant. -/
theorem timerTick_reduced (ha : s.armed = true) (hv : s.cfg.variant = .reduced) :
    execTimerTick s = .next (advance (writeBus s.cfg.addrBus s.tc s)) := by
  simp [execTimerTick, ha, hv, execRseqP0]

/-- Everything one invocation of the FULL handler can do (R100 to R105). -/
theorem dispatch_cases {t : State} (hw : Wired s) (hd : DataInputs s) (h : dispatchTick s = .next t) :
    (s.tc / 4 = 2 ^ s.cfg.aw ∧ t = s) ∨
    (s.tc / 4 < 2 ^ s.cfg.aw ∧
      ((s.tc % 4 = 0 ∧ t = phase0 (blockFirst (s.tc / 4)) (s.tc / 4) s) ∨
       (s.tc % 4 = 1 ∧ ∃ v k, readBus s.cfg.dataBus s = .next (v, { s with draws := s.draws + k }) ∧
         v < 2 ^ s.cfg.dw ∧
         (driving s = true → k = 0 ∧ v = (memRead s.mem (latchValue s s.cfg.addrBus)).toNat % 2 ^ s.cfg.dw) ∧
         t = phase1Emit { s with draws := s.draws + k, sb := BitVec.ofNat 8 v }) ∨
       (s.tc % 4 = 2 ∧ t = offer (hexChar (lowNibble s.sb)) s advance) ∨
       (s.tc % 4 = 3 ∧ t = offer (separator (s.tc / 4)) s advance))) := by
  simp only [dispatchTick] at h
  split at h
  · cases h
  · split at h
    · exact .inl ⟨‹_›, by simpa [execSeqTerm, eq_comm] using h⟩
    · refine .inr ⟨by omega, ?_⟩
      have hp : s.tc % 4 = 0 ∨ s.tc % 4 = 1 ∨ s.tc % 4 = 2 ∨ s.tc % 4 = 3 := by omega
      rcases hp with e | e | e | e <;> simp only [e] at h
      · refine .inl ⟨e, ?_⟩
        split at h <;> simp_all [execSeqP0NL, execSeqP0]
      · obtain ⟨v, k, hr, hv, hdr⟩ := sample_cases hw hd
        rw [execSeqP1_of_read _ hr] at h
        exact .inr (.inl ⟨e, v, k, hr, hv, hdr, by simpa [eq_comm] using h⟩)
      · exact .inr (.inr (.inl ⟨e, by simpa [execSeqP2, eq_comm] using h⟩))
      · refine .inr (.inr (.inr ⟨e, ?_⟩))
        split at h
        · rename_i hb; simpa [execSeqP3CR, separator, hb, eq_comm] using h
        · simpa [execSeqP3, eq_comm] using h

/-- R193: an invocation of the FULL handler always ends, unless the start value is beyond the terminal value. -/
theorem dispatch_ends (hw : Wired s) (hd : DataInputs s) (h : s.tc / 4 ≤ 2 ^ s.cfg.aw) :
    ∃ t, dispatchTick s = .next t := by
  simp only [dispatchTick]
  rw [if_neg (by omega)]
  split
  · exact ⟨_, rfl⟩
  · split
    · split <;> exact ⟨_, rfl⟩
    · obtain ⟨v, k, hr, _⟩ := sample_cases hw hd
      exact ⟨_, execSeqP1_of_read _ hr⟩
    · exact ⟨_, rfl⟩
    · split <;> exact ⟨_, rfl⟩

end Sys2Proof.Machine
end

