-- ==== Sys2Proof/Laws/Step.lean ====
section
/-! SUPPORT. What a step can do: which operation it runs, and on which state. -/

namespace Sys2Proof.Machine

variable {s t : State}

/-- A step runs the fetched operation on the state without the consumed event. -/
theorem step_of_legal (h : configLegal s.cfg = true) : step s = exec (fetch s) (popStim s) := by
  simp [step, h]

/-- The operation of the main flow, by the value of `MS`. -/
theorem mainInstr_cases (s : State) :
    (s.ms = 0 ∧ mainInstr s = .buClocks) ∨ (s.ms = 1 ∧ mainInstr s = .buCfgAddr) ∨
    (s.ms = 2 ∧ mainInstr s = .buCfgData) ∨ (s.ms = 3 ∧ mainInstr s = .buCtrlLevels) ∨
    (s.ms = 4 ∧ mainInstr s = .buCfgCtrl) ∨ (s.ms = 5 ∧ mainInstr s = .buCeAssert) ∨
    (s.ms = 6 ∧ mainInstr s = .buTcInit) ∨ (s.ms = 7 ∧ mainInstr s = .buSerialCfg) ∨
    (s.ms = 8 ∧ mainInstr s = .buWaitStart) ∨ (s.ms = 9 ∧ mainInstr s = .buArm) ∨
    (s.ms = 10 ∧ mainInstr s = .buHalt) := by
  unfold mainInstr
  generalize s.ms = m
  revert m
  decide

/-- Everything a step can run: a main-flow operation, or an environment operation. -/
theorem fetch_cases (s : State) :
    fetch s = mainInstr s ∨ fetch s = .timerTick ∨ fetch s = .txdDrain ∨ (∃ b, fetch s = .rxsSend b) ∨
    (s.stim.head? = some .rst ∧ fetch s = .rst) := by
  unfold fetch idleInstr
  split
  · split <;> simp_all
  all_goals simp_all

/-- If a step answers, the configuration is legal and the fetched operation answered. -/
theorem step_eq_next (h : step s = .next t) :
    configLegal s.cfg = true ∧ exec (fetch s) (popStim s) = .next t := by
  unfold step at h
  split at h
  · exact ⟨‹_›, h⟩
  · cases h

/-- Consuming an event changes nothing else; what the invariant says does not mention events. -/
theorem popStim_inv (h : BlockInv s) : BlockInv (popStim s) :=
  ⟨⟨h.struct.1, h.struct.2, h.struct.3, h.struct.4⟩, ⟨h.flow.1, h.flow.2, h.flow.3⟩,
   ⟨h.serial.1, h.serial.2, h.serial.3, h.serial.4⟩,
   ⟨h.wiring.1, h.wiring.2, h.wiring.3, h.wiring.4, h.wiring.5, h.wiring.6,
    fun ha hv => by
      have e : latchValue (popStim s) s.cfg.addrBus = latchValue s s.cfg.addrBus := latchValue_congr fun _ _ => rfl
      have := h.wiring.7 ha hv
      simpa only [addressAsDecoded, popStim_cfg, popStim_tc, e] using this⟩⟩

/-- The invariant gives the wiring and the data inputs that the handler needs. -/
theorem BlockInv.wired (h : BlockInv s) : Wired s := ⟨h.struct.legal, h.struct.table⟩

theorem BlockInv.dataInputs (h : BlockInv s) : DataInputs s := fun l hl =>
  ⟨_, h.wiring.dataFloating l hl, rfl⟩

/-- R39: after the reset event every Line is a floating input and the table lists the same Lines. -/
theorem keys_resetLines (n : Nat) (cs : List LineCell) :
    (resetLines n cs).map LineCell.line = cs.map LineCell.line := by
  induction cs generalizing n with
  | nil => rfl
  | cons c cs ih => simp [resetLines, ih]

theorem modeOf_hardReset (s : State) (l : Line) :
    modeOf (hardReset s) l = (modeOf s l).map fun _ => ⟨.input, .floating⟩ := by
  have key : ∀ (cs : List LineCell) n, ((resetLines n cs).find? fun c => decide (c.line = l)).map LineCell.mode =
      ((cs.find? fun c => decide (c.line = l)).map LineCell.mode).map fun _ => ⟨.input, .floating⟩ := by
    intro cs
    induction cs with
    | nil => intro n; rfl
    | cons c cs ih =>
      intro n
      by_cases h : c.line = l
      · simp [resetLines, h]
      · simp [resetLines, h, ih]
  exact key s.lines s.draws

end Sys2Proof.Machine
end

