-- ==== Sys2Proof/Laws/Handler.lean ====
section
/-! SUPPORT. One serviced tick, case by case (R100 to R108, R120, R156), what it never touches, what an undriven Data
Bus reads as (R64, R187), and what one start wait can do (R144). -/

namespace Sys2Proof.Machine

variable {s t : State}

/-- R64: a selected device drives as soon as its outputs are enabled. -/
theorem driving_of_selected (hs : Selected s) (h : latchOf s s.cfg.oeLine = some (levelBit s.cfg .oeRead)) :
    driving s = true := by
  obtain ⟨h1, h2, h3, h4⟩ := hs
  simp [driving, h2, h3, h, List.all_eq_true]
  exact ⟨h1, h4⟩

/-- R64: with its outputs disabled the device does not drive. -/
theorem not_driving_of_off (h : latchOf s s.cfg.oeLine = some (levelBit s.cfg .oeOff)) : driving s = false := by
  have ne : ¬ (some (levelBit s.cfg .oeOff) = some (levelBit s.cfg .oeRead)) := by
    cases h : s.cfg.levels.oeRead <;> simp [levelBit, h]
  simp only [driving, h, ne, decide_false, Bool.and_false, Bool.false_and]

/-- Everything TIMER.TICK can do, by `ARMED` and by variant. -/
theorem tick_cases (h : execTimerTick s = .next t) :
    (s.armed = false ∧ t = s) ∨
    (s.armed = true ∧ s.cfg.variant = .reduced ∧ t = advance (writeBus s.cfg.addrBus s.tc s)) ∨
    (s.armed = true ∧ s.cfg.variant = .full ∧ dispatchTick s = .next t) := by
  by_cases ha : s.armed = true
  · cases hv : s.cfg.variant
    · exact .inr (.inr ⟨ha, rfl, by simpa [execTimerTick, ha, hv, execSeqTick] using h⟩)
    · rw [timerTick_reduced ha hv] at h
      cases h
      exact .inr (.inl ⟨ha, rfl, rfl⟩)
  · refine .inl ⟨by simpa using ha, ?_⟩
    simp [execTimerTick, ha] at h
    exact h.symm

/-- R104, R105: everything an offer followed by the advance can do. -/
theorem offer_advance_cases (b : Byte) :
    (s.hr = none ∧ offer b s advance =
      { s with hr := some b, txlog := s.txlog ++ [b], tc := (s.tc + 1) % 2 ^ s.cfg.cw }) ∨
    (∃ c, s.hr = some c ∧ offer b s advance = s) := by
  rcases offer_cases b s advance with ⟨h, e⟩ | ⟨c, h, e⟩
  · exact .inl ⟨h, e⟩
  · exact .inr ⟨c, h, e⟩

/-- R102: phase 0 keeps the modes, the table, the configuration and `ARMED`. -/
theorem phase0_frame (nl : Bool) (a : Nat) (s : State) :
    (phase0 nl a s).lines.map LineCell.line = s.lines.map LineCell.line ∧ SameModes s (phase0 nl a s) ∧
    (phase0 nl a s).cfg = s.cfg ∧ (phase0 nl a s).armed = s.armed := by
  have drive : ∀ u : State, u.lines = (driveCtrl .oeRead (writeBus s.cfg.addrBus a s)).lines → SameModes s u :=
    fun u hu l => (modeOf_congr hu l).trans (by simp)
  cases nl
  · rw [phase0_silent]
    exact ⟨by simp, drive _ rfl, rfl, rfl⟩
  · cases h : s.hr with
    | none =>
      rw [phase0_accepted a h]
      exact ⟨by simp, drive _ rfl, rfl, rfl⟩
    | some c =>
      rw [phase0_refused a h]
      exact ⟨by simp, fun l => (modeOf_congr (s := writeBus s.cfg.addrBus a s) rfl l).trans (by simp), rfl, rfl⟩

/-- Everything one invocation of the FULL handler can do, where `TC` does not wrap: nothing (terminal, or phase 2 or
3 refused), phase 0 without, with an accepted and with a refused separator, phase 1 accepted and refused, and phase
2 or 3 accepted (R101 to R105, R108). -/
theorem handler_cases (hw : Wired s) (hd : DataInputs s) (hv : s.cfg.variant = .full)
    (h : dispatchTick s = .next t) :
    (t = s) ∨
    (s.tc / 4 < 2 ^ s.cfg.aw ∧ s.tc % 4 = 0 ∧ blockFirst (s.tc / 4) = false ∧
      t = { s with lines := (driveCtrl .oeRead (writeBus s.cfg.addrBus (s.tc / 4) s)).lines, tc := s.tc + 1 }) ∨
    (s.tc / 4 < 2 ^ s.cfg.aw ∧ s.tc % 4 = 0 ∧ s.hr = none ∧
      t = { s with lines := (driveCtrl .oeRead (writeBus s.cfg.addrBus (s.tc / 4) s)).lines, tc := s.tc + 1,
                   hr := some codeNl, txlog := s.txlog ++ [codeNl] }) ∨
    (s.tc / 4 < 2 ^ s.cfg.aw ∧ s.tc % 4 = 0 ∧
      t = { s with lines := (writeBus s.cfg.addrBus (s.tc / 4) s).lines }) ∨
    (s.tc / 4 < 2 ^ s.cfg.aw ∧ s.tc % 4 = 1 ∧ ∃ v k b, b ∈ sentCodes ∧
      t = { s with lines := (driveCtrl .oeOff s).lines, draws := k, sb := v, tc := s.tc + 1, hr := some b,
                   txlog := s.txlog ++ [b] }) ∨
    (s.tc / 4 < 2 ^ s.cfg.aw ∧ s.tc % 4 = 1 ∧ ∃ v k,
      t = { s with lines := (driveCtrl .oeOff s).lines, draws := k, sb := v }) ∨
    (s.tc / 4 < 2 ^ s.cfg.aw ∧ (s.tc % 4 = 2 ∨ s.tc % 4 = 3) ∧ ∃ b ∈ sentCodes,
      t = { s with tc := s.tc + 1, hr := some b, txlog := s.txlog ++ [b] }) := by
  have hx : ∀ n, hexChar n ∈ sentCodes := by decide
  have htc : s.tc / 4 < 2 ^ s.cfg.aw → (s.tc + 1) % 2 ^ s.cfg.cw = s.tc + 1 := fun h' =>
    Nat.mod_eq_of_lt (by have := terminal_lt hw.1 hv; omega)
  rcases dispatch_cases hw hd h with ⟨_, rfl⟩ | ⟨hl, ⟨hp, rfl⟩ | ⟨hp, v, k, _, _, _, rfl⟩ | ⟨hp, rfl⟩ | ⟨hp, rfl⟩⟩
  · exact .inl rfl
  · right
    cases hb : blockFirst (s.tc / 4)
    · rw [phase0_silent, htc hl]
      exact .inl ⟨hl, hp, rfl, rfl⟩
    · rcases Option.eq_none_or_eq_some s.hr with hr | ⟨c, hr⟩
      · rw [phase0_accepted _ hr, htc hl]
        exact .inr (.inl ⟨hl, hp, hr, rfl⟩)
      · rw [phase0_refused _ hr]
        exact .inr (.inr (.inl ⟨hl, hp, rfl⟩))
  · right; right; right; right
    rcases Option.eq_none_or_eq_some s.hr with hr | ⟨c, hr⟩
    · have := phase1Emit_accepted (s := { s with draws := s.draws + k, sb := BitVec.ofNat 8 v }) hr
      refine .inl ⟨hl, hp, BitVec.ofNat 8 v, s.draws + k, _, hx (highNibble (BitVec.ofNat 8 v)), this.trans ?_⟩
      ext1 <;> first | rfl | exact htc hl
    · have := phase1Emit_refused (s := { s with draws := s.draws + k, sb := BitVec.ofNat 8 v }) (c := c) hr
      exact .inr (.inl ⟨hl, hp, _, _, this⟩)
  · rcases offer_advance_cases (s := s) (hexChar (lowNibble s.sb)) with ⟨_, e⟩ | ⟨_, _, e⟩ <;> rw [e]
    · rw [htc hl]
      exact .inr (.inr (.inr (.inr (.inr (.inr ⟨hl, .inl hp, _, hx _, rfl⟩)))))
    · exact .inl rfl
  · rcases offer_advance_cases (s := s) (separator (s.tc / 4)) with ⟨_, e⟩ | ⟨_, _, e⟩ <;> rw [e]
    · rw [htc hl]
      exact .inr (.inr (.inr (.inr (.inr (.inr ⟨hl, .inr hp, _, by unfold separator; split <;> decide, rfl⟩)))))
    · exact .inl rfl

/-- R64: an input Line shows a fresh draw while the device does not drive. -/
theorem getLine_undriven {l : Line} {md : Mode} (h : modeOf s l = some md) (hd : md.dir = .input)
    (hdr : driving s = false) : getLine l s = .next (Config.drawBit s.draws, { s with draws := s.draws + 1 }) := by
  simp only [getLine, h, hd, pinIn, drawBit, hdr]
  rw [if_neg (by decide)]
  split <;> rfl

theorem readBusFrom_undriven {ls : List Line} (i v : Nat) (h : allInputs s ls) (hdr : driving s = false)
    (hv : v < 2 ^ i) :
    ∃ x, readBusFrom i ls v s = .next (x, { s with draws := s.draws + ls.length }) ∧
      (∀ j < i, x.testBit j = v.testBit j) ∧
      (∀ j < ls.length, x.testBit (i + j) = Config.drawBit (s.draws + j)) ∧ x < 2 ^ (i + ls.length) := by
  induction ls generalizing i v s with
  | nil => exact ⟨v, rfl, fun _ _ => rfl, fun j hj => by simp at hj, by simpa using hv⟩
  | cons l ls ih =>
    obtain ⟨md, hm, hd⟩ := h l (by simp)
    have hg := getLine_undriven hm hd hdr
    have hb : ∀ b : Bool, (if b then v + 2 ^ i else v) < 2 ^ (i + 1) ∧
        (∀ j < i, (if b then v + 2 ^ i else v).testBit j = v.testBit j) ∧
        (if b then v + 2 ^ i else v).testBit i = b := by
      intro b
      cases b
      · refine ⟨?_, fun _ _ => rfl, ?_⟩
        · simp only [Bool.false_eq_true, if_false]; rw [Nat.pow_succ]; omega
        · exact Nat.testBit_lt_two_pow hv
      · refine ⟨?_, fun j hj => ?_, ?_⟩
        · simp only [if_true]; rw [Nat.pow_succ]; omega
        · simp only [if_true]; rw [Nat.add_comm, Nat.testBit_two_pow_add_gt hj]
        · simp only [if_true]; rw [Nat.add_comm, Nat.testBit_two_pow_add_eq, Nat.testBit_lt_two_pow hv]; rfl
    obtain ⟨b1, b2, b3⟩ := hb (Config.drawBit s.draws)
    obtain ⟨x, hr, hx1, hx2, hx3⟩ := ih (s := { s with draws := s.draws + 1 }) (i + 1) _
      (fun l' h' => h l' (by simp [h'])) ((driving_congr (s := s) rfl rfl).trans hdr) b1
    refine ⟨x, ?_, ?_, ?_, ?_⟩
    · rw [readBusFrom, hg, andThen_next, hr, List.length_cons]; congr 3; show s.draws + 1 + _ = _; omega
    · intro j hj; rw [hx1 j (by omega), b2 j hj]
    · intro j hj
      cases j with
      | zero => rw [Nat.add_zero, hx1 i (by omega), b3, Nat.add_zero]
      | succ j =>
        rw [show i + (j + 1) = i + 1 + j by omega, hx2 j (by simpa using hj)]
        show Config.drawBit (s.draws + 1 + j) = _; congr 1; omega
    · rw [List.length_cons, show i + (ls.length + 1) = i + 1 + ls.length by omega]; exact hx3

/-- R95, R64: while the device does not drive, bit `j` of a bus read is draw number `draws + j`. -/
theorem readBus_undriven {ls : List Line} (h : allInputs s ls) (hdr : driving s = false) :
    ∃ x, readBus ls s = .next (x, { s with draws := s.draws + ls.length }) ∧ x < 2 ^ ls.length ∧
      ∀ j < ls.length, x.testBit j = Config.drawBit (s.draws + j) := by
  obtain ⟨x, hr, _, hx, hlt⟩ := readBusFrom_undriven 0 0 h hdr (by simp)
  exact ⟨x, hr, by simpa using hlt, fun j hj => by simpa using hx j hj⟩

/-- Everything one start wait of the FULL variant can do (R144). -/
theorem waitStart_cases (s : State) :
    (s.rxq = [] ∧ waitStart s = s) ∨
    (∃ q, s.rxq = codeCr :: q ∧ waitStart s = { s with rxq := q, ms := 9 }) ∨
    (∃ b q, b ≠ codeCr ∧ s.rxq = b :: q ∧ waitStart s = { s with rxq := q, ms := 8 }) := by
  unfold waitStart
  cases hq : s.rxq with
  | nil => exact .inl ⟨rfl, by rw [recv_nil hq]⟩
  | cons b q =>
    rw [recv_cons hq]
    by_cases hb : b = codeCr
    · exact .inr (.inl ⟨q, by rw [hb], by simp [hb, goTo]⟩)
    · exact .inr (.inr ⟨b, q, hb, rfl, by simp [hb, goTo]⟩)

end Sys2Proof.Machine
end

