-- ==== Sys2Proof/Laws/Conditions.lean ====
section
/-! SUPPORT. The lifecycle transitions of R162, and what an operation that meets a condition of R155 answers. -/

namespace Sys2Proof.Machine

variable {s t : State}

/-! ### Lifecycle -/

/-- R31: LS_WAIT_START and LS_TERMINAL never occur in the REDUCED variant. -/
theorem lifecycle_reduced (h : s.cfg.variant = .reduced) : lifecycle s ≠ .waitStart ∧ lifecycle s ≠ .terminal := by
  simp only [lifecycle, terminal, h]
  constructor <;> (repeat' split) <;> simp_all

/-- R162: `RST` leads to LS_BRINGUP. -/
theorem lifecycle_rst (h : exec .rst s = .next t) : lifecycle t = .bringup := by
  cases h; rfl

/-- R162: the last step of bring-up leads to the start wait in FULL and to arming in REDUCED. -/
theorem lifecycle_serialCfg (h : exec .buSerialCfg s = .next t) :
    lifecycle t = if s.cfg.variant = .full then .waitStart else .arming := by
  cases h; simp [lifecycle, goTo]

/-- R162: the start wait stays where no byte or another byte is pending and leads to arming at the start byte. -/
theorem lifecycle_waitStart (hs : lifecycle s = .waitStart) (h : exec .buWaitStart s = .next t) :
    lifecycle t = if s.rxq.head? = some codeCr then .arming else .waitStart := by
  have hv : s.cfg.variant = .full := by
    by_contra hv
    have : s.cfg.variant = .reduced := by cases e : s.cfg.variant <;> simp_all
    exact (lifecycle_reduced this).1 hs
  have h : fullOnly s (waitStart s) (goTo 9 s) = t := by cases h; rfl
  simp only [fullOnly, hv] at h
  subst h
  rcases waitStart_cases s with ⟨hq, e⟩ | ⟨q, hq, e⟩ | ⟨b, q, hb, hq, e⟩ <;> rw [e]
  · simpa [hq] using hs
  · simp [hq, lifecycle]
  · simp [hq, hb, lifecycle, hv]

/-- R162: arming leads to LS_RUN, the counter being 0 then (R142, R148). -/
theorem lifecycle_arm (h0 : s.tc = 0) (h : exec .buArm s = .next t) : lifecycle t = .run := by
  cases h
  have : ¬ 0 = 2 ^ s.cfg.aw := (Nat.two_pow_pos s.cfg.aw).ne
  simp [lifecycle, goTo, terminal, addrOf, h0, this]

/-- R162: in the permanent wait the counter alone says whether the block runs or is terminal. -/
theorem lifecycle_halted (h : s.ms = 10) : lifecycle s = if terminal s then .terminal else .run := by
  simp [lifecycle, h]

/-! ### Conditions -/

/-- R108: an operation whose `RELAY.TRY_SEND` finds the register full neither advances nor sends. -/
theorem txBusy_handled {i : Instr} (hm : meets s i .txBusy = true) (h : exec i s = .next t) :
    t.tc = s.tc ∧ t.txlog = s.txlog ∧ t.hr = s.hr := by
  simp only [meets, Bool.and_eq_true, Bool.not_eq_true', txe, Option.isNone_eq_false_iff, Option.isSome_iff_exists] at hm
  obtain ⟨hr, c, hc⟩ := hm
  -- a phase that offers its byte
  have phase : ∀ j t, offersByte j = true → exec j s = .next t → t.tc = s.tc ∧ t.txlog = s.txlog ∧ t.hr = s.hr := by
    intro j t hj h
    cases j <;> try (cases hj; done)
    case seqP0NL a => cases h; rw [phase0_refused a hc]; exact ⟨rfl, rfl, rfl⟩
    case seqP0 a => cases h; rw [show blockFirst a = true from hj, phase0_refused a hc]; exact ⟨rfl, rfl, rfl⟩
    case seqP1 a =>
      obtain ⟨x, hx, h⟩ := andThen_eq_next h
      obtain ⟨k, hk⟩ := readBus_eq_next hx
      cases h
      rw [phase1Emit_refused (c := c) (by simp [hk, hc])]; simp [hk]
    all_goals cases h; rw [offer_busy _ c _ hc]; exact ⟨rfl, rfl, rfl⟩
  -- an invocation that reaches such a phase
  have tick : (decide (s.tc / 4 < 2 ^ s.cfg.aw) && offersByte (decodeTcFull s.cfg s.tc)) = true →
      dispatchTick s = .next t → t.tc = s.tc ∧ t.txlog = s.txlog ∧ t.hr = s.hr := by
    intro ho h
    simp only [Bool.and_eq_true, decide_eq_true_eq] at ho
    rw [dispatchTick_decoded (by omega)] at h
    exact phase _ _ ho.2 h
  simp only [reachesTrySend, Bool.or_eq_true] at hr
  rcases hr with (hn | ho) | hd
  · cases i <;> try (cases hn; done)
    all_goals cases h; rw [sendByName_busy _ c hc]; exact ⟨rfl, rfl, rfl⟩
  · exact phase i t ho h
  · rw [Bool.and_assoc, Bool.and_eq_true] at hd
    cases i <;> try (cases hd.1)
    case seqTick =>
      have ha : s.armed = true := hd.1
      exact tick hd.2 (by simpa [exec, execSeqTick, ha] using h)
    case timerTick =>
      have ha : s.armed = true ∧ s.cfg.variant = .full := by simpa [runsDispatch] using hd.1
      exact tick hd.2 (by simpa [exec, execTimerTick, execSeqTick, ha.1, ha.2] using h)

/-- R101, R158: an invocation that finds the terminal condition changes nothing, and does not look at the relay. -/
theorem terminal_handled {i : Instr} (hm : meets s i .terminal = true) :
    exec i s = .next s ∧ meets s i .txBusy = false := by
  simp only [meets, Bool.and_eq_true, decide_eq_true_eq] at hm
  obtain ⟨hr, ht⟩ := hm
  have hd : dispatchTick s = .next s := by simp [dispatchTick, ht, execSeqTerm]
  cases i <;> try (cases hr)
  case seqTick =>
    have ha : s.armed = true := hr
    exact ⟨by simp [exec, execSeqTick, ha, hd], by simp [meets, reachesTrySend, offersByName, offersByte, ht]⟩
  case timerTick =>
    have ha : s.armed = true ∧ s.cfg.variant = .full := by simpa [runsDispatch] using hr
    exact ⟨by simp [exec, execTimerTick, execSeqTick, ha.1, ha.2, hd],
      by simp [meets, reachesTrySend, offersByName, offersByte, ht]⟩

/-- R144: a malformed start byte is consumed and the wait goes on. -/
theorem badStart_handled {i : Instr} (hm : meets s i .badStart = true) :
    i = .buWaitStart ∧ s.cfg.variant = .full ∧
      ∃ b q, b ≠ codeCr ∧ s.rxq = b :: q ∧ exec i s = .next { s with rxq := q, ms := 8 } := by
  simp only [meets, Bool.and_eq_true, decide_eq_true_eq, rxByte] at hm
  obtain ⟨⟨rfl, hl⟩, hb⟩ := hm
  have hv : s.cfg.variant = .full := by
    cases e : s.cfg.variant
    · rfl
    · exact absurd hl (lifecycle_reduced e).1
  refine ⟨rfl, hv, ?_⟩
  rcases waitStart_cases s with ⟨hq, _⟩ | ⟨q, hq, _⟩ | ⟨b, q, hne, hq, e⟩
  · simp [hq] at hb
  · simp [hq] at hb
  · exact ⟨b, q, hne, hq, by simp [exec, execBuWaitStart, fullOnly, hv, e]⟩

/-- R9, R155: the step refuses a configuration that meets COND_MISCONFIG. -/
theorem misconfig_handled {i : Instr} (hm : meets s i .misconfig = true) : step s = .refused .misconfigured := by
  simp only [meets, Bool.not_eq_true'] at hm
  simp [step, hm]

end Sys2Proof.Machine
end

