-- ==== Sys2Proof/Laws/Fairness.lean ====
section
/-! SUPPORT. The weak fairness of the transmitter (R128): every run of the machine drains a full register, and along a
fair schedule every retry eventually succeeds. -/

namespace Sys2Proof.Machine

variable {s t : State}

/-! ### What a step does to the pending events -/

/-- An invocation of the FULL handler consumes no event. -/
theorem dispatchTick_stim (h : dispatchTick s = .next t) : t.stim = s.stim := by
  have off : ∀ b, (offer b s advance).stim = s.stim := fun b => by
    rcases offer_cases b s advance with ⟨_, e⟩ | ⟨_, _, e⟩ <;> (rw [e]; try rfl)
  have ph0 : ∀ nl a, (phase0 nl a s).stim = s.stim := fun nl a => by
    cases nl
    · rw [phase0_silent]
    · cases hr : s.hr with
      | none => rw [phase0_accepted a hr]
      | some c => rw [phase0_refused a hr]
  simp only [dispatchTick] at h
  split at h
  · cases h
  split at h
  · cases h; rfl
  split at h
  · split at h <;> cases h <;> exact ph0 _ _
  · obtain ⟨x, hx, h⟩ := andThen_eq_next h
    obtain ⟨k, hk⟩ := readBus_eq_next hx
    cases h
    cases hr : s.hr with
    | none => rw [phase1Emit_accepted (by simp [hk, hr])]; simp [hk]
    | some c => rw [phase1Emit_refused (c := c) (by simp [hk, hr])]; simp [hk]
  · cases h; exact off _
  · split at h <;> cases h <;> exact off _

/-- What a main-flow step changes besides `MS`: never the pending events, and after arming nothing at all. -/
theorem mainInstr_frame (h : exec (mainInstr s) s = .next t) : t.stim = s.stim ∧ (s.ms = 10 → t = s) := by
  rcases mainInstr_cases s with ⟨hm, e⟩ | ⟨hm, e⟩ | ⟨hm, e⟩ | ⟨hm, e⟩ | ⟨hm, e⟩ | ⟨hm, e⟩ | ⟨hm, e⟩ | ⟨hm, e⟩ | ⟨hm, e⟩ |
    ⟨hm, e⟩ | ⟨hm, e⟩ <;> rw [e] at h <;> refine ⟨?_, fun h10 => ?_⟩ <;>
    first
    | (exact absurd (hm.symm.trans h10) (by decide))
    | (cases h; first | rfl | simp | skip)
  · unfold fullOnly; split <;> simp
  · unfold fullOnly
    split
    · rcases waitStart_cases s with ⟨_, e⟩ | ⟨_, _, e⟩ | ⟨_, _, _, _, e⟩ <;> rw [e]
    · simp

/-- A step consumes exactly its event. -/
theorem step_stim (h : step s = .next t) : t.stim = s.stim.tail := by
  obtain ⟨_, h⟩ := step_eq_next h
  have hm : mainInstr s = mainInstr (popStim s) := rfl
  rcases fetch_cases s with e | e | e | ⟨b, e⟩ | ⟨_, e⟩ <;> rw [e] at h
  · rw [hm] at h; exact (mainInstr_frame h).1
  · rcases tick_cases h with ⟨_, rfl⟩ | ⟨_, _, rfl⟩ | ⟨_, _, hd⟩
    · rfl
    · simp [popStim]
    · exact dispatchTick_stim hd
  all_goals cases h; rfl

/-! ### Every run drains -/

/-- R128: a run of the machine that does not stop finds the holding register empty after at most one step more than
there are pending events. -/
theorem run_drains (h : ∀ n, ∃ t, runSteps n s = .next t) :
    ∃ n t, n ≤ s.stim.length + 1 ∧ runSteps n s = .next t ∧ t.hr = none := by
  generalize hl : s.stim = l
  induction l generalizing s with
  | nil =>
    cases hr : s.hr with
    | none => exact ⟨0, s, by simp, rfl, hr⟩
    | some c =>
      obtain ⟨t, ht⟩ := h 1
      obtain ⟨u, hu, rfl⟩ : ∃ u, step s = .next u ∧ u = t := by
        obtain ⟨u, hu, hk⟩ := andThen_eq_next ht; exact ⟨u, hu, by cases hk; rfl⟩
      refine ⟨1, u, by simp, ht, ?_⟩
      obtain ⟨_, he⟩ := step_eq_next hu
      rw [show fetch s = .txdDrain by simp [fetch, hl, idleInstr, txe, hr]] at he
      cases he; rfl
  | cons e l ih =>
    obtain ⟨t, ht⟩ := h 1
    obtain ⟨u, hu, _⟩ := andThen_eq_next ht
    obtain ⟨n, v, hn, hv, hr⟩ := ih (s := u)
      (fun n => by obtain ⟨v, hv⟩ := h (n + 1); exact ⟨v, by simpa [runSteps, hu] using hv⟩)
      (by rw [step_stim hu, hl]; rfl)
    exact ⟨n + 1, v, by simp; omega, by simp [runSteps, hu, hv], hr⟩

/-! ### Every retry eventually succeeds -/

/-- An invocation of the FULL handler that finds the relay free advances the counter, unless the dump is over. -/
theorem dispatch_free (hw : Wired s) (hd : DataInputs s) (hv : s.cfg.variant = .full) (hr : s.hr = none)
    (hl : s.tc / 4 < 2 ^ s.cfg.aw) (h : dispatchTick s = .next t) : t.tc = s.tc + 1 := by
  have hm : (s.tc + 1) % 2 ^ s.cfg.cw = s.tc + 1 :=
    Nat.mod_eq_of_lt (by have := terminal_lt hw.1 hv; omega)
  rcases dispatch_cases hw hd h with ⟨h0, _⟩ | ⟨_, ⟨_, rfl⟩ | ⟨_, v, k, _, _, _, rfl⟩ | ⟨_, rfl⟩ | ⟨_, rfl⟩⟩
  · omega
  · cases blockFirst (s.tc / 4)
    · rw [phase0_silent]; exact hm
    · rw [phase0_accepted _ hr]; exact hm
  · rw [phase1Emit_accepted (by exact hr)]; exact hm
  all_goals rw [offer_free _ _ hr]; exact hm

/-- One step of a FULL dump that is not over: it stays armed in its configuration, and the counter stays or advances by
one; with the relay free a tick advances it, and no other event fills the register. -/
theorem dump_step {e : Stimulus} (hi : BlockInv s) (hv : s.cfg.variant = .full) (ha : s.armed = true)
    (hl : s.tc / 4 < 2 ^ s.cfg.aw) (he : e ≠ .rst) (h : step { s with stim := [e] } = .next t) :
    t.cfg = s.cfg ∧ t.armed = true ∧
    (t.tc = s.tc + 1 ∨ (t.tc = s.tc ∧ (s.hr = none → e ≠ .tick ∧ t.hr = none))) := by
  obtain ⟨_, h⟩ := step_eq_next h
  have h10 : s.ms = 10 := hi.flow.armedAtHalt.mp ha
  cases e with
  | main =>
    have : t = popStim { s with stim := [.main] } :=
      (mainInstr_frame (s := popStim { s with stim := [.main] }) h).2 h10
    subst this
    exact ⟨rfl, ha, .inr ⟨rfl, fun hr => ⟨by simp, hr⟩⟩⟩
  | drain => cases h; exact ⟨rfl, ha, .inr ⟨rfl, fun _ => ⟨by simp, rfl⟩⟩⟩
  | rx b => cases h; exact ⟨rfl, ha, .inr ⟨rfl, fun hr => ⟨by simp, hr⟩⟩⟩
  | rst => exact absurd rfl he
  | tick =>
    have hw : Wired (popStim { s with stim := [.tick] }) := hi.wired
    have hdi : DataInputs (popStim { s with stim := [.tick] }) := hi.dataInputs
    rcases tick_cases h with ⟨hn, _⟩ | ⟨_, hr, _⟩ | ⟨_, _, hd⟩
    · exact absurd (ha.symm.trans hn) (by simp)
    · exact absurd (hv.symm.trans hr) (by simp)
    have free : s.hr = none → t.tc = s.tc + 1 := fun hr =>
      dispatch_free (s := popStim { s with stim := [.tick] }) hw hdi hv hr hl hd
    rcases handler_cases hw hdi hv hd with rfl | ⟨_, _, _, rfl⟩ | ⟨_, _, _, rfl⟩ | ⟨_, _, rfl⟩ |
      ⟨_, _, _, _, _, _, rfl⟩ | ⟨_, _, _, _, rfl⟩ | ⟨_, _, _, _, rfl⟩ <;> refine ⟨rfl, ha, ?_⟩ <;>
      first
      | exact .inl rfl
      | exact .inr ⟨rfl, fun hr => absurd (free hr) (by simp [popStim])⟩

/-- R128: along a fair schedule with ticks for ever and no reset, a FULL dump that is not over always advances again. -/
theorem retry_succeeds {σ : Nat → Stimulus} (hfair : FairRun σ s)
    (hrun : ∀ n, ∃ u, runUnder σ n s = .next u ∧ BlockInv u) (htick : ∀ n, ∃ m, n ≤ m ∧ σ m = .tick)
    (hrst : ∀ n, σ n ≠ .rst) {n : Nat} (ht : runUnder σ n s = .next t) (hv : t.cfg.variant = .full)
    (ha : t.armed = true) (hl : t.tc / 4 < 2 ^ t.cfg.aw) :
    ∃ m u, n ≤ m ∧ runUnder σ m s = .next u ∧ u.tc = t.tc + 1 := by
  by_contra hno
  push Not at hno
  have next : ∀ {m u}, runUnder σ m s = .next u → ∃ v, step { u with stim := [σ m] } = .next v ∧
      runUnder σ (m + 1) s = .next v := fun {m u} hu => by
    obtain ⟨v, hv, _⟩ := hrun (m + 1)
    exact ⟨v, by simpa [runUnder, hu] using hv, hv⟩
  have inv : ∀ {m u}, runUnder σ m s = .next u → BlockInv u := fun {m u} hu => by
    obtain ⟨v, hv, hi⟩ := hrun m
    rw [hu] at hv; cases hv; exact hi
  -- if it never advances, every later state still is where `t` is
  have stuck : ∀ k, ∃ u, runUnder σ (n + k) s = .next u ∧ u.cfg = t.cfg ∧ u.armed = true ∧ u.tc = t.tc := by
    intro k
    induction k with
    | zero => exact ⟨t, ht, rfl, ha, rfl⟩
    | succ k ih =>
      obtain ⟨u, hu, hc, hua, htc⟩ := ih
      obtain ⟨v, hs, hv'⟩ := next hu
      obtain ⟨h1, h2, h3⟩ := dump_step (inv hu) (by rw [hc]; exact hv) hua (by rw [hc, htc]; exact hl) (hrst _) hs
      refine ⟨v, hv', h1.trans hc, h2, ?_⟩
      rcases h3 with h3 | ⟨h3, _⟩
      · exact absurd (by rw [h3, htc]) (hno (n + k + 1) v (by omega) hv')
      · exact h3.trans htc
  have stuck' : ∀ {m u}, n ≤ m → runUnder σ m s = .next u → u.cfg = t.cfg ∧ u.armed = true ∧ u.tc = t.tc :=
    fun {m u} hm hu => by
      obtain ⟨v, hv, h⟩ := stuck (m - n)
      rw [show n + (m - n) = m by omega, hu] at hv; cases hv; exact h
  -- the register is empty at some later point, and then for ever
  obtain ⟨m, u, hnm, hu, hr⟩ : ∃ m u, n ≤ m ∧ runUnder σ m s = .next u ∧ u.hr = none := by
    cases hr : t.hr with
    | none => exact ⟨n, t, le_rfl, ht, hr⟩
    | some c => exact hfair n t ht (by simp [hr])
  have quiet : ∀ {j u}, n ≤ j → runUnder σ j s = .next u → u.hr = none → ∃ v, runUnder σ (j + 1) s = .next v ∧
      σ j ≠ .tick ∧ v.hr = none := fun {j u} hj hu hr => by
    obtain ⟨hc, hua, htc⟩ := stuck' hj hu
    obtain ⟨v, hs, hv'⟩ := next hu
    obtain ⟨_, _, h3⟩ := dump_step (inv hu) (by rw [hc]; exact hv) hua (by rw [hc, htc]; exact hl) (hrst _) hs
    rcases h3 with h3 | ⟨_, h3⟩
    · exact absurd (by rw [h3, htc]) (hno (j + 1) v (by omega) hv')
    · exact ⟨v, hv', (h3 hr).1, (h3 hr).2⟩
  have free : ∀ k, ∃ u, runUnder σ (m + k) s = .next u ∧ u.hr = none := fun k => by
    induction k with
    | zero => exact ⟨u, hu, hr⟩
    | succ k ih =>
      obtain ⟨u, hu, hr⟩ := ih
      obtain ⟨v, hv, _, hr⟩ := quiet (by omega) hu hr
      exact ⟨v, hv, hr⟩
  -- a tick comes, and advances
  obtain ⟨j, hj, hjt⟩ := htick m
  obtain ⟨v, hv', hr'⟩ := free (j - m)
  rw [show m + (j - m) = j by omega] at hv'
  obtain ⟨_, _, hne, _⟩ := quiet (by omega) hv' hr'
  exact hne hjt

end Sys2Proof.Machine
end

