-- ==== Sys2Proof/Laws/Memory.lean ====
section
/-! SUPPORT. The device's cells: placing a cell and reading it, and the canonical form. -/

namespace Sys2Proof.Machine

/-- A cell reads as what was placed there, and every other cell as before. -/
theorem memRead_memPlace (m : List Host.Cell) (lo x y : Nat) (v : Byte) (h : memCanonFrom lo m = true) :
    memRead (memPlace m x v) y = if y = x then v else memRead m y := by
  induction m generalizing lo with
  | nil =>
    simp only [memPlace]
    split
    · rename_i hv; simp [memRead, hv]
    · simp [memRead, eq_comm]
  | cons c m ih =>
    obtain ⟨a, b⟩ := c
    simp only [memCanonFrom, Bool.and_eq_true, decide_eq_true_eq] at h
    have below : ∀ (m : List Host.Cell) lo z, memCanonFrom lo m = true → z < lo → memRead m z = unlistedCell := by
      intro m
      induction m with
      | nil => intros; rfl
      | cons c m ih =>
        obtain ⟨a, b⟩ := c
        intro lo z hc hz
        simp only [memCanonFrom, Bool.and_eq_true, decide_eq_true_eq] at hc
        rw [memRead, if_neg (by omega), ih (a + 1) z hc.2 (by omega)]
    simp only [memPlace]
    split
    · simp only [memRead, ih (a + 1) h.2]
      by_cases hy : y = x
      · subst hy; simp; omega
      · simp [hy]
    · split
      · rename_i hax; subst hax
        split
        · rename_i hv; subst hv
          by_cases hy : y = a
          · subst hy; simp [below m _ _ h.2 (Nat.lt_succ_self _)]
          · simp [hy, memRead, Ne.symm hy]
        · by_cases hy : y = a
          · subst hy; simp [memRead]
          · simp [hy, memRead, Ne.symm hy]
      · split
        · rename_i hv; subst hv
          by_cases hy : y = x
          · subst hy
            simp only [memRead, if_true]
            rw [if_neg (by omega), below m _ _ h.2 (by omega)]
          · simp [hy]
        · by_cases hy : y = x
          · subst hy; simp [memRead]
          · simp [hy, memRead, Ne.symm hy]

/-- Placing a cell keeps the canonical form. -/
theorem memCanonFrom_memPlace (m : List Host.Cell) (lo x : Nat) (v : Byte) (hx : lo ≤ x)
    (h : memCanonFrom lo m = true) : memCanonFrom lo (memPlace m x v) = true := by
  induction m generalizing lo with
  | nil => simp only [memPlace]; split <;> simp_all [memCanonFrom]
  | cons c m ih =>
    obtain ⟨a, b⟩ := c
    simp only [memCanonFrom, Bool.and_eq_true, decide_eq_true_eq] at h
    have weaken : ∀ (m : List Host.Cell) lo lo', lo' ≤ lo → memCanonFrom lo m = true → memCanonFrom lo' m = true := by
      intro m lo lo' hl hm
      cases m with
      | nil => rfl
      | cons c m =>
        obtain ⟨a, b⟩ := c
        simp only [memCanonFrom, Bool.and_eq_true, decide_eq_true_eq] at hm ⊢
        exact ⟨⟨by omega, hm.1.2⟩, hm.2⟩
    simp only [memPlace]
    split
    · rename_i hax
      simp only [memCanonFrom, Bool.and_eq_true, decide_eq_true_eq]
      exact ⟨h.1, ih (a + 1) hax h.2⟩
    · split
      · split
        · exact weaken m (a + 1) lo (by omega) h.2
        · rename_i hax hv
          simp only [memCanonFrom, Bool.and_eq_true, decide_eq_true_eq]
          refine ⟨⟨hx, by simpa using hv⟩, ?_⟩
          rw [← hax]; exact h.2
      · split
        · simpa only [memCanonFrom, Bool.and_eq_true, decide_eq_true_eq] using h
        · rename_i hv
          simp only [memCanonFrom, Bool.and_eq_true, decide_eq_true_eq]
          exact ⟨⟨hx, by simpa using hv⟩, ⟨by omega, h.1.2⟩, h.2⟩

/-- Placing an existing cell of the right width keeps `memWf` (the only memory operation there is). -/
theorem memWf_memPlace (cfg : Config) (m : List Host.Cell) (x : Nat) (v : Byte) (hx : x < 2 ^ cfg.aw)
    (hv : v.toNat < 2 ^ cfg.dw) (h : memWf cfg m = true) : memWf cfg (memPlace m x v) = true := by
  simp only [memWf, Bool.and_eq_true] at h ⊢
  refine ⟨memCanonFrom_memPlace m 0 x v (Nat.zero_le _) h.1, ?_⟩
  have h2 := h.2
  clear h
  induction m with
  | nil => simp only [memPlace]; split <;> simp [hx, hv]
  | cons c m ih =>
    obtain ⟨a, b⟩ := c
    simp only [List.all_cons, Bool.and_eq_true] at h2
    simp only [memPlace]
    split
    · simp only [List.all_cons, Bool.and_eq_true]; exact ⟨h2.1, ih h2.2⟩
    · split <;> split <;> simp only [List.all_cons, Bool.and_eq_true, decide_eq_true_eq] at * <;> tauto

/-- The reset memory is in canonical form. -/
theorem memWf_nil (cfg : Config) : memWf cfg [] = true := rfl

end Sys2Proof.Machine
end

