-- ==== Sys2Proof/Laws/PerInstr.lean ====
section
/-! SUPPORT. A statement for every operation, one lemma each: the number an operation is encoded as fits the width of
its format (R70, R71, R74, R76, R31). The operations invoked by name have no encoding (R82). -/

namespace Sys2Proof.Laws

open Sys2Proof.Machine

/-- The width of a format in bits: the Tick Counter's, a serial byte's, and the 4 bits of `MS`. -/
def formatBits (cfg : Config) : Format → Nat
  | .tcFull | .tcReduced => cfg.cw
  | .txByte | .rxByte => 8
  | .mainStep => 4

/-- In a legal FULL configuration the number a well-formed operation is encoded as fits its format. -/
def EncodingFits.Statement (i : Instr) : Prop :=
  ∀ (cfg : Config) (f : Format) (w : Nat), configLegal cfg = true → cfg.variant = .full → wellFormed cfg i = true →
    encode cfg i = some (f, w) → w < 2 ^ formatBits cfg f

/-- R70: a counter value of phase `p` of an address below `2^AW` fits the counter. -/
theorem counterFits {cfg : Config} (hl : configLegal cfg = true) (hv : cfg.variant = .full) {a p : Nat}
    (ha : a < 2 ^ cfg.aw) (hp : p < 4) : 4 * a + p < 2 ^ cfg.cw := by
  have := terminal_lt hl hv
  omega

theorem EncodingFits.seqTerm : EncodingFits.Statement .seqTerm := by
  rintro cfg f w hl hv _ ⟨⟩
  exact terminal_lt hl hv

theorem EncodingFits.seqP0NL (a : Nat) : EncodingFits.Statement (.seqP0NL a) := by
  rintro cfg f w hl hv hw ⟨⟩
  simp only [wellFormed, Bool.and_eq_true, decide_eq_true_eq] at hw
  exact counterFits (p := 0) hl hv hw.1 (by decide)

theorem EncodingFits.seqP0 (a : Nat) : EncodingFits.Statement (.seqP0 a) := by
  rintro cfg f w hl hv hw ⟨⟩
  simp only [wellFormed, Bool.and_eq_true, decide_eq_true_eq] at hw
  exact counterFits (p := 0) hl hv hw.1 (by decide)

theorem EncodingFits.seqP1 (a : Nat) : EncodingFits.Statement (.seqP1 a) := by
  rintro cfg f w hl hv hw ⟨⟩
  exact counterFits (p := 1) hl hv (by simpa [wellFormed] using hw) (by decide)

theorem EncodingFits.seqP2 (a : Nat) : EncodingFits.Statement (.seqP2 a) := by
  rintro cfg f w hl hv hw ⟨⟩
  exact counterFits (p := 2) hl hv (by simpa [wellFormed] using hw) (by decide)

theorem EncodingFits.seqP3CR (a : Nat) : EncodingFits.Statement (.seqP3CR a) := by
  rintro cfg f w hl hv hw ⟨⟩
  simp only [wellFormed, Bool.and_eq_true, decide_eq_true_eq] at hw
  exact counterFits (p := 3) hl hv hw.1 (by decide)

theorem EncodingFits.seqP3 (a : Nat) : EncodingFits.Statement (.seqP3 a) := by
  rintro cfg f w hl hv hw ⟨⟩
  simp only [wellFormed, Bool.and_eq_true, decide_eq_true_eq] at hw
  exact counterFits (p := 3) hl hv hw.1 (by decide)

theorem EncodingFits.rseqP0 : EncodingFits.Statement .rseqP0 := by
  rintro cfg f w _ _ _ ⟨⟩
  exact Nat.two_pow_pos _

theorem EncodingFits.txHex0 : EncodingFits.Statement .txHex0 := by
  rintro cfg f w _ _ _ ⟨⟩
  simp [formatBits]

theorem EncodingFits.txHex1 : EncodingFits.Statement .txHex1 := by
  rintro cfg f w _ _ _ ⟨⟩
  simp [formatBits]

theorem EncodingFits.txHex2 : EncodingFits.Statement .txHex2 := by
  rintro cfg f w _ _ _ ⟨⟩
  simp [formatBits]

theorem EncodingFits.txHex3 : EncodingFits.Statement .txHex3 := by
  rintro cfg f w _ _ _ ⟨⟩
  simp [formatBits]

theorem EncodingFits.txHex4 : EncodingFits.Statement .txHex4 := by
  rintro cfg f w _ _ _ ⟨⟩
  simp [formatBits]

theorem EncodingFits.txHex5 : EncodingFits.Statement .txHex5 := by
  rintro cfg f w _ _ _ ⟨⟩
  simp [formatBits]

theorem EncodingFits.txHex6 : EncodingFits.Statement .txHex6 := by
  rintro cfg f w _ _ _ ⟨⟩
  simp [formatBits]

theorem EncodingFits.txHex7 : EncodingFits.Statement .txHex7 := by
  rintro cfg f w _ _ _ ⟨⟩
  simp [formatBits]

theorem EncodingFits.txHex8 : EncodingFits.Statement .txHex8 := by
  rintro cfg f w _ _ _ ⟨⟩
  simp [formatBits]

theorem EncodingFits.txHex9 : EncodingFits.Statement .txHex9 := by
  rintro cfg f w _ _ _ ⟨⟩
  simp [formatBits]

theorem EncodingFits.txHexa : EncodingFits.Statement .txHexa := by
  rintro cfg f w _ _ _ ⟨⟩
  simp [formatBits]

theorem EncodingFits.txHexb : EncodingFits.Statement .txHexb := by
  rintro cfg f w _ _ _ ⟨⟩
  simp [formatBits]

theorem EncodingFits.txHexc : EncodingFits.Statement .txHexc := by
  rintro cfg f w _ _ _ ⟨⟩
  simp [formatBits]

theorem EncodingFits.txHexd : EncodingFits.Statement .txHexd := by
  rintro cfg f w _ _ _ ⟨⟩
  simp [formatBits]

theorem EncodingFits.txHexe : EncodingFits.Statement .txHexe := by
  rintro cfg f w _ _ _ ⟨⟩
  simp [formatBits]

theorem EncodingFits.txHexf : EncodingFits.Statement .txHexf := by
  rintro cfg f w _ _ _ ⟨⟩
  simp [formatBits]

theorem EncodingFits.txNl : EncodingFits.Statement .txNl := by
  rintro cfg f w _ _ _ ⟨⟩
  simp [formatBits]

theorem EncodingFits.txSp : EncodingFits.Statement .txSp := by
  rintro cfg f w _ _ _ ⟨⟩
  simp [formatBits]

theorem EncodingFits.txCr : EncodingFits.Statement .txCr := by
  rintro cfg f w _ _ _ ⟨⟩
  simp [formatBits]

theorem EncodingFits.rxStart : EncodingFits.Statement .rxStart := by
  rintro cfg f w _ _ _ ⟨⟩
  simp [formatBits]

theorem EncodingFits.lineConfigure (l : Line) (m : Direction) (e : Econf) : EncodingFits.Statement (.lineConfigure l m e) := by
  rintro cfg f w _ _ _ ⟨⟩

theorem EncodingFits.lineSet (l : Line) (b : Bool) : EncodingFits.Statement (.lineSet l b) := by
  rintro cfg f w _ _ _ ⟨⟩

theorem EncodingFits.lineGet (l : Line) : EncodingFits.Statement (.lineGet l) := by
  rintro cfg f w _ _ _ ⟨⟩

theorem EncodingFits.busConfigure (B : BusId) (m : Direction) (e : Econf) : EncodingFits.Statement (.busConfigure B m e) := by
  rintro cfg f w _ _ _ ⟨⟩

theorem EncodingFits.busWrite (B : BusId) (v : Nat) : EncodingFits.Statement (.busWrite B v) := by
  rintro cfg f w _ _ _ ⟨⟩

theorem EncodingFits.busRead (B : BusId) : EncodingFits.Statement (.busRead B) := by
  rintro cfg f w _ _ _ ⟨⟩

theorem EncodingFits.ctrlSet (c : CtrlLine) (x : CtrlState) : EncodingFits.Statement (.ctrlSet c x) := by
  rintro cfg f w _ _ _ ⟨⟩

theorem EncodingFits.seqTick : EncodingFits.Statement .seqTick := by
  rintro cfg f w _ _ _ ⟨⟩

theorem EncodingFits.relayTrySend (b : Byte) : EncodingFits.Statement (.relayTrySend b) := by
  rintro cfg f w _ _ _ ⟨⟩

theorem EncodingFits.relayRecv : EncodingFits.Statement .relayRecv := by
  rintro cfg f w _ _ _ ⟨⟩

theorem EncodingFits.buClocks : EncodingFits.Statement .buClocks := by
  rintro cfg f w _ _ _ ⟨⟩
  simp [formatBits]

theorem EncodingFits.buCfgAddr : EncodingFits.Statement .buCfgAddr := by
  rintro cfg f w _ _ _ ⟨⟩
  simp [formatBits]

theorem EncodingFits.buCfgData : EncodingFits.Statement .buCfgData := by
  rintro cfg f w _ _ _ ⟨⟩
  simp [formatBits]

theorem EncodingFits.buCtrlLevels : EncodingFits.Statement .buCtrlLevels := by
  rintro cfg f w _ _ _ ⟨⟩
  simp [formatBits]

theorem EncodingFits.buCfgCtrl : EncodingFits.Statement .buCfgCtrl := by
  rintro cfg f w _ _ _ ⟨⟩
  simp [formatBits]

theorem EncodingFits.buCeAssert : EncodingFits.Statement .buCeAssert := by
  rintro cfg f w _ _ _ ⟨⟩
  simp [formatBits]

theorem EncodingFits.buTcInit : EncodingFits.Statement .buTcInit := by
  rintro cfg f w _ _ _ ⟨⟩
  simp [formatBits]

theorem EncodingFits.buSerialCfg : EncodingFits.Statement .buSerialCfg := by
  rintro cfg f w _ _ _ ⟨⟩
  simp [formatBits]

theorem EncodingFits.buWaitStart : EncodingFits.Statement .buWaitStart := by
  rintro cfg f w _ _ _ ⟨⟩
  simp [formatBits]

theorem EncodingFits.buArm : EncodingFits.Statement .buArm := by
  rintro cfg f w _ _ _ ⟨⟩
  simp [formatBits]

theorem EncodingFits.buHalt : EncodingFits.Statement .buHalt := by
  rintro cfg f w _ _ _ ⟨⟩
  simp [formatBits]

theorem EncodingFits.timerTick : EncodingFits.Statement .timerTick := by
  rintro cfg f w _ _ _ ⟨⟩

theorem EncodingFits.txdDrain : EncodingFits.Statement .txdDrain := by
  rintro cfg f w _ _ _ ⟨⟩

theorem EncodingFits.rxsSend (b : Byte) : EncodingFits.Statement (.rxsSend b) := by
  rintro cfg f w _ _ _ ⟨⟩

theorem EncodingFits.rst : EncodingFits.Statement .rst := by
  rintro cfg f w _ _ _ ⟨⟩

end Sys2Proof.Laws
end

