-- ==== Sys2Proof/Tests/Slice0.lean ====
section
/-! SUPPORT. Tests on small states. Expected results come from the tables and worked examples of the spec (the rule or
the vector V<n> of 95_test_vectors.md stands beside each); the `witness_` theorems show that the hypotheses of each
statement can be met together. -/

namespace Sys2Proof.Tests

open Sys2Proof.Machine

/-! ### Small machines -/

/-- 16 cells of 8 bits, counter of 8 bits (V7's `AW = 4`, `CW = 8`). -/
def tiny (v : Variant) : Config where
  variant   := v
  aw        := 4
  dw        := 8
  cw        := 8
  addrBus   := (List.range 4).map (Line.mk 0)
  dataBus   := (List.range 8).map (Line.mk 1)
  oeLine    := ⟨2, 0⟩
  ceLine    := ⟨2, 1⟩
  weLine    := ⟨2, 2⟩
  levels    := { oeRead := false, ceSelected := false, weActive := false }
  addrEconf := .pushPull

/-- A bus's Lines, all in one mode, the latches holding a value. -/
def bank (ls : List Line) (md : Mode) (v : Nat) : List LineCell :=
  (List.range ls.length).zip ls |>.map fun p => { line := p.2, mode := md, latch := v.testBit p.1 }

/-- The state after arming (R148) of a tiny block, with the counter, the address shown and the output-enable latch as
given. The device holds 0xA5 in cell 0, 0x0F in cell 1 and 0xF0 in cell 15. -/
def running (v : Variant) (tc addr : Nat) (oe : Bool) : State where
  cfg    := tiny v
  tc     := tc
  sb     := 0
  lines  := bank (tiny v).addrBus ⟨.output, .pushPull⟩ addr ++ bank (tiny v).dataBus ⟨.input, .floating⟩ 0 ++
    bank (tiny v).ctrlBus ⟨.output, .openDrain⟩ ((if oe then 1 else 0) + (if v = .full then 4 else 6))
  armed  := true
  ms     := 10
  hr     := none
  txlog  := []
  rxq    := []
  mem    := [(0, 0xA5), (1, 0x0F), (15, 0xF0)]
  stim   := []
  draws  := 0
  result := .none

/-- A tiny block before bring-up (R39). -/
def fresh (v : Variant) : State :=
  { running v 0 0 true with lines := (tiny v).allLines.map freshCell, armed := false, ms := 0 }

/-- The state an operation answers, looked at through `f`. -/
def seen {α : Type} (o : Host.Outcome State Fault Refusal) (f : State → α) : Option α :=
  match o with
  | .next s => some (f s)
  | .fault _ => none
  | .refused _ => none

/-- What the phases change. -/
structure View where
  tc    : Nat
  addr  : Nat
  oe    : Option Bool
  hr    : Option Byte
  txlog : List Byte
deriving DecidableEq, Repr

/-- A state as the phase tests look at it. -/
def view (s : State) : View := ⟨s.tc, latchValue s s.cfg.addrBus, latchOf s s.cfg.oeLine, s.hr, s.txlog⟩

/-! ### WellFormed refuses -/

/-- R50 (a): an address beyond the device. -/
theorem test_wf_address : wellFormed (tiny .full) (.seqP1 16) = false ∧ wellFormed (tiny .full) (.seqP2 16) = false ∧
    wellFormed (tiny .full) (.seqP0NL 16) = false ∧ wellFormed (tiny .full) (.seqP0 17) = false ∧
    wellFormed (tiny .full) (.seqP3CR 31) = false ∧ wellFormed (tiny .full) (.seqP3 16) = false := by decide

/-- R72: the sub-rows take block-first and block-last addresses only, their parents the others. -/
theorem test_wf_cadence : wellFormed .observed (.seqP0NL 1) = false ∧ wellFormed .observed (.seqP0 16) = false ∧
    wellFormed .observed (.seqP3CR 14) = false ∧ wellFormed .observed (.seqP3 15) = false := by decide

/-- R50 (b): a Line outside the three buses. -/
theorem test_wf_line : wellFormed (tiny .full) (.lineConfigure ⟨3, 0⟩ .input .floating) = false ∧
    wellFormed (tiny .full) (.lineSet ⟨0, 4⟩ true) = false ∧ wellFormed (tiny .full) (.lineGet ⟨1, 8⟩) = false := by
  decide

/-- R96: a state of another control line. -/
theorem test_wf_ctrl : wellFormed (tiny .full) (.ctrlSet .oe .ceSelected) = false ∧
    wellFormed (tiny .full) (.ctrlSet .we .oeOff) = false ∧ wellFormed (tiny .full) (.ctrlSet .ce .weActive) = false := by
  decide

/-- R9, items (a) to (e): each broken constraint is refused. -/
theorem test_config_refused : configLegal { tiny .full with aw := 3 } = false ∧
    configLegal { tiny .full with dw := 0 } = false ∧ configLegal { tiny .full with dw := 9 } = false ∧
    configLegal { tiny .full with cw := 6 } = false ∧ configLegal { tiny .reduced with cw := 3 } = false ∧
    configLegal { tiny .full with ceLine := ⟨2, 0⟩ } = false ∧
    configLegal { tiny .full with dataBus := (List.range 7).map (Line.mk 1) } = false := by decide

/-! ### Decoding: words written out from the spec's tables -/

/-- V1, R70 to R73, `AW = 19`: counter values bit by bit, the address in bits 31 to 2, the phase in bits 1 to 0. -/
theorem test_decode_counter :
    [0b000000, 0b000001, 0b000010, 0b000011, 0b000100, 0b111011, 0b111100, 0b111101, 0b111111, 0b1000000,
      0b1000000000000000000000].map (decodeTcFull .observed) =
    [.seqP0NL 0, .seqP1 0, .seqP2 0, .seqP3 0, .seqP0 1, .seqP3 14, .seqP0 15, .seqP1 15, .seqP3CR 15, .seqP0NL 16,
      .seqTerm] := by decide

/-- R71: every counter value of the REDUCED variant. -/
theorem test_decode_reduced : [0, 5, 0x00080005, 0xFFFFFFFF].map (decodeTick { Config.observed with variant := .reduced }) =
    [.rseqP0, .rseqP0, .rseqP0, .rseqP0] := by decide

/-- R74, digits: `'0'` is 0011 0000, `'a'` is 0110 0001. -/
theorem test_decode_digits :
    [0b00110000, 0b00110001, 0b00110010, 0b00110011, 0b00110100, 0b00110101, 0b00110110, 0b00110111, 0b00111000,
      0b00111001, 0b01100001, 0b01100010, 0b01100011, 0b01100100, 0b01100101, 0b01100110].map decodeTx =
    [some .txHex0, some .txHex1, some .txHex2, some .txHex3, some .txHex4, some .txHex5, some .txHex6, some .txHex7,
      some .txHex8, some .txHex9, some .txHexa, some .txHexb, some .txHexc, some .txHexd, some .txHexe,
      some .txHexf] := by decide

/-- R74, separators; upper case digits and anything else are not sent. -/
theorem test_decode_separators : [0b00001010, 0b00100000, 0b00001101, 0x41, 0x46, 0x00].map decodeTx =
    [some .txNl, some .txSp, some .txCr, none, none, none] := by decide

/-- R76, V14: one received value has a meaning. -/
theorem test_decode_received : [0b00001101, 0x0A, 0x00, 0x0C, 0x0E, 0xFF, 0x8D].map decodeRx =
    [some .rxStart, none, none, none, none, none, none] := by decide

/-- R135: the bring-up steps by the 4 bits of `MS`. -/
theorem test_decode_bringup :
    [0b0000, 0b0001, 0b0010, 0b0011, 0b0100, 0b0101, 0b0110, 0b0111, 0b1000, 0b1001, 0b1010, 0b1011].map decodeMs =
    [some .buClocks, some .buCfgAddr, some .buCfgData, some .buCtrlLevels, some .buCfgCtrl, some .buCeAssert,
      some .buTcInit, some .buSerialCfg, some .buWaitStart, some .buArm, some .buHalt, none] := by decide

/-- The table's words, as the host numbers them. -/
theorem test_decodeTableWord : decodeTableWord 24 0x00200000 = some .seqTerm ∧ decodeTableWord 8 0x3D = some (.seqP1 15) ∧
    decodeTableWord 8 0x61 = some .txHexa ∧ decodeTableWord 4 8 = some .buWaitStart ∧ decodeTableWord 4 11 = none := by
  decide

/-- A placed word is what the next step runs (log 2). -/
theorem test_withFetchWord :
    fetch (State.reset.withFetchWord 4 9) = .buArm ∧ fetch (State.reset.withFetchWord 8 2) = .timerTick ∧
    decodeTick Config.observed (State.reset.withFetchWord 8 2).tc = .seqP2 0 ∧
    seen (step (State.reset.withFetchWord 8 0x61)) State.txlog = some [0x61] ∧
    seen (step (State.reset.withFetchWord 8 0x39)) State.txlog = some [0x39] ∧
    seen (step (State.reset.withFetchWord 8 0x20)) State.txlog = some [0x20] ∧
    seen (step (State.reset.withFetchWord 8 0x0D)) State.txlog = some [0x0D] := by decide +kernel

/-! ### Bus Abstraction -/

/-- R90's example: the line becomes an open-drain output and keeps its latch. -/
theorem test_lineConfigure :
    seen (exec (.lineConfigure ⟨2, 0⟩ .output .openDrain) (fresh .full)) (fun t => (modeOf t ⟨2, 0⟩, latchOf t ⟨2, 0⟩)) =
    some (some ⟨.output, .openDrain⟩, some false) := by decide

/-- R91's example; and the write of a latch of an input Line. -/
theorem test_lineSet :
    seen (exec (.lineSet ⟨0, 0⟩ true) (running .full 0 4 true)) (fun t => latchValue t t.cfg.addrBus) = some 5 ∧
    seen (exec (.lineSet ⟨1, 3⟩ true) (running .full 0 4 true)) (fun t => (latchOf t ⟨1, 3⟩, modeOf t ⟨1, 3⟩)) =
      some (some true, some ⟨.input, .floating⟩) := by decide

/-- R92's example: the device drives 0xA5. -/
theorem test_lineGet :
    [0, 1, 2, 7].map (fun i => seen (exec (.lineGet ⟨1, i⟩) (running .full 0 0 false)) State.result) =
    [some (.bit true), some (.bit false), some (.bit true), some (.bit true)] := by decide

/-- R93's example. -/
theorem test_busConfigure :
    seen (exec (.busConfigure .ctrl .output .openDrain) (fresh .full)) (fun t => t.lines.map LineCell.mode) =
    some (List.replicate 12 ⟨.input, .floating⟩ ++ List.replicate 3 ⟨.output, .openDrain⟩) := by decide

/-- R94's example, `AW = 19`: 0x5A5A5 sets Lines 0, 2, 5, 7, 8, 10, 13, 15, 16, 18; 0x80000 clears every Line. -/
theorem test_busWrite :
    seen (exec (.busWrite .addr 0x5A5A5) State.reset)
      (fun t => (List.range 19).filter fun i => decide (latchOf t ⟨0, i⟩ = some true)) =
      some [0, 2, 5, 7, 8, 10, 13, 15, 16, 18] ∧
    seen (exec (.busWrite .addr 0x80000) State.reset) (fun t => latchValue t t.cfg.addrBus) = some 0 := by
  decide +kernel

/-- R95's example: Lines 7 to 0 at 1,0,1,0,0,1,0,1 give 0xA5. -/
theorem test_busRead : seen (exec (.busRead .data) (running .full 0 0 false)) State.result = some (.value 0xA5) ∧
    exec (.busRead .addr) (running .full 0 0 false) = .refused (.getOnOutput ⟨0, 0⟩) := by
  exact ⟨by decide, rfl⟩

/-- R96's example: with the default levels OE_READ is latch 0. -/
theorem test_ctrlSet : seen (exec (.ctrlSet .oe .oeRead) (running .full 0 0 true)) (fun t => latchOf t ⟨2, 0⟩) =
    some (some false) ∧
    seen (exec (.ctrlSet .we .weInactive) (running .full 0 0 true)) (fun t => latchOf t ⟨2, 2⟩) = some (some true) := by
  decide

/-! ### Serial Relay and environment -/

/-- V6: accepted, then refused. -/
theorem test_trySend :
    seen (exec (.relayTrySend 0x61) (running .full 0 0 true)) (fun t => (t.hr, t.txlog, t.result)) =
      some (some 0x61, [0x61], .accepted true) ∧
    seen (exec (.relayTrySend 0x35) { running .full 0 0 true with hr := some 0x61, txlog := [0x61] })
      (fun t => (t.hr, t.txlog, t.result)) = some (some 0x61, [0x61], .accepted false) := by decide

/-- V6: bytes in the order sent. -/
theorem test_recv : seen (exec .relayRecv { fresh .full with rxq := [0x41, 0x0D] }) (fun t => (t.rxq, t.result)) =
    some ([0x0D], .byte 0x41) := by decide

/-- R128, R129. -/
theorem test_environment :
    seen (exec .txdDrain { running .full 0 0 true with hr := some 0x61, txlog := [0x61] }) (fun t => (t.hr, t.txlog)) =
      some (none, [0x61]) ∧
    seen (exec (.rxsSend 0x0D) { fresh .full with rxq := [0x41] }) State.rxq = some [0x41, 0x0D] := by decide

/-- V5: the digits of a byte. -/
theorem test_digits : [0x0F, 0xF0, 0x9A].map (fun b => (hexChar (highNibble b), hexChar (lowNibble b))) =
    [((0x30 : Byte), (0x66 : Byte)), (0x66, 0x30), (0x39, 0x61)] := by decide

/-- R74: each code row offers its own code. -/
theorem test_txCodes :
    [Instr.txHex0, .txHex1, .txHex2, .txHex3, .txHex4, .txHex5, .txHex6, .txHex7, .txHex8, .txHex9, .txHexa, .txHexb,
      .txHexc, .txHexd, .txHexe, .txHexf, .txNl, .txSp, .txCr].map (fun i => seen (exec i (fresh .full)) State.hr) =
    sentCodes.map fun b => some (some b) := by decide

/-! ### Phase Sequencer -/

/-- V8 a, c: a block-first address with a free relay. -/
theorem test_p0_newline :
    seen (exec .seqTick (running .full 0x00 9 true)) view = some ⟨0x01, 0, some false, some 0x0A, [0x0A]⟩ ∧
    seen (exec (.seqP0NL 0) { running .full 0x00 9 true with hr := some 0x0D }) view =
      some ⟨0x00, 0, some true, some 0x0D, []⟩ := by decide

/-- V8 b: not block-first, the relay is not consulted. -/
theorem test_p0_plain : seen (exec .seqTick { running .full 0x04 0 true with hr := some 0x20 }) view =
    some ⟨0x05, 1, some false, some 0x20, []⟩ := by decide

/-- V9 a, b: sampled and sent; sampled and refused. -/
theorem test_p1 :
    seen (exec .seqTick (running .full 0x01 0 false)) (fun t => (t.sb, view t)) =
      some (0xA5, ⟨0x02, 0, some true, some 0x61, [0x61]⟩) ∧
    seen (exec .seqTick { running .full 0x01 0 false with hr := some 0x0A }) (fun t => (t.sb, view t)) =
      some (0xA5, ⟨0x01, 0, some true, some 0x0A, []⟩) := by decide

/-- V9 d, e: high nibble 0 and 15. -/
theorem test_p1_nibbles :
    seen (exec .seqTick (running .full 0x05 1 false)) (fun t => (t.sb, t.hr)) = some (0x0F, some 0x30) ∧
    seen (exec .seqTick (running .full 0x3D 15 false)) (fun t => (t.sb, t.hr)) = some (0xF0, some 0x66) := by decide

/-- V10 a, b. -/
theorem test_p2 :
    seen (exec .seqTick { running .full 0x02 0 true with sb := 0xA5 }) view =
      some ⟨0x03, 0, some true, some 0x35, [0x35]⟩ ∧
    exec .seqTick { running .full 0x02 0 true with sb := 0xA5, hr := some 0x61 } =
      .next { running .full 0x02 0 true with sb := 0xA5, hr := some 0x61 } := by
  exact ⟨by decide, rfl⟩

/-- V11 a, b, c, and the end of the dump. -/
theorem test_p3 :
    seen (exec .seqTick (running .full 0x3B 14 true)) view = some ⟨0x3C, 14, some true, some 0x20, [0x20]⟩ ∧
    seen (exec .seqTick (running .full 0x3F 15 true)) (fun t => (view t, terminal t)) =
      some (⟨0x40, 15, some true, some 0x0D, [0x0D]⟩, true) := by decide

/-- V12 c: the inert tick, the register full. -/
theorem test_terminal : exec .timerTick { running .full 0x40 15 true with hr := some 0x0D } =
    .next { running .full 0x40 15 true with hr := some 0x0D } := by rfl

/-- R80 (a), D20. -/
theorem test_beyond_terminal : exec .seqTick (running .full 0x44 0 true) = .refused (.counterBeyondTerminal 0x44) := by rfl

/-- V7, `AW = 4`, `CW = 8`: the counter wraps; the relay is not looked at. -/
theorem test_reduced :
    seen (exec .timerTick (running .reduced 0xFF 3 true)) (fun t => (t.tc, latchValue t t.cfg.addrBus)) = some (0x00, 0xF) ∧
    seen (exec .rseqP0 { running .reduced 0x10 15 true with hr := some 0x20 }) view =
      some ⟨0x11, 0, some true, some 0x20, []⟩ := by decide

/-! ### Bring-up and reset -/

/-- V13: the five steps that touch the wires, from the reset state. -/
theorem test_bringup_wires :
    seen (runOps [.buClocks, .buCfgAddr, .buCfgData, .buCtrlLevels] (fresh .full))
      (fun t => (t.ms, (tiny .full).ctrlBus.map (latchOf t), (tiny .full).ctrlBus.map (modeOf t))) =
      some (4, [some true, some true, some true], List.replicate 3 (some ⟨.input, .floating⟩)) ∧
    seen (runOps [.buClocks, .buCfgAddr, .buCfgData, .buCtrlLevels, .buCfgCtrl, .buCeAssert] (fresh .full))
      (fun t => (t.ms, (tiny .full).ctrlBus.map (latchOf t), (tiny .full).ctrlBus.map (modeOf t))) =
      some (6, [some true, some false, some true], List.replicate 3 (some ⟨.output, .openDrain⟩)) := by decide

/-- V13, the REDUCED variant: chip-enable stays deselected and no byte is needed. -/
theorem test_bringup_reduced :
    seen (runOps [.buClocks, .buCfgAddr, .buCfgData, .buCtrlLevels, .buCfgCtrl, .buCeAssert, .buTcInit, .buSerialCfg,
      .buWaitStart, .buArm, .buHalt] (fresh .reduced)) (fun t => (t.ms, t.armed, latchOf t ⟨2, 1⟩)) =
    some (10, true, some true) := by decide

/-- V14: the start byte and two others. -/
theorem test_waitStart :
    [[0x0D, 0x0D], [0x0A], [0x8D]].map (fun q => seen (exec .buWaitStart { fresh .full with ms := 8, rxq := q })
      (fun t => (t.ms, t.rxq))) = [some (9, [(0x0D : Byte)]), some (8, []), some (8, [])] ∧
    seen (exec .rxStart { fresh .full with ms := 8, rxq := [0x0D] }) (fun t => (t.ms, t.rxq)) = some (9, []) := by decide

/-- R142, R145: the counter and the arming. -/
theorem test_arm : seen (runOps [.buTcInit, .buSerialCfg] { fresh .full with tc := 0x55, ms := 6 })
      (fun t => (t.tc, t.ms)) = some (0, 8) ∧
    seen (exec .buArm { fresh .full with ms := 9 }) (fun t => (t.armed, t.ms)) = some (true, 10) := by decide

/-- V15: what reset leaves of a dump in progress; the free values are not looked at. -/
theorem test_reset :
    seen (exec .rst { running .full 0x36 13 true with hr := some 0x37, txlog := [0x37], rxq := [0x0D] })
      (fun t => ((t.ms, t.armed), (t.hr, t.txlog, t.rxq), t.lines.map LineCell.mode)) =
    some ((0, false), (none, [], []), List.replicate 15 ⟨.input, .floating⟩) := by decide

/-- P1's encoding: with a tick pending the step runs the handler. -/
theorem test_step_tick : seen (step { running .full 0x00 9 true with stim := [.tick] }) (fun t => (view t, t.stim)) =
    some (⟨0x01, 0, some false, some 0x0A, [0x0A]⟩, []) := by decide

/-- R162: after the MAIN steps 0 to 7 FULL waits for the start and REDUCED is arming. -/
theorem test_lifecycle : [Variant.full, .reduced].map (fun v => seen (runSteps 8 (fresh v)) lifecycle) =
    [some .waitStart, some .arming] := by decide

/-- R155, R158: a busy relay is met where a byte is offered (phase 3), not in a phase without one, not in the terminal
condition, which hides it. -/
theorem test_condition_busy :
    [63, 4, 64].map (fun tc =>
      let s := { running .full tc 15 true with hr := some 0x61 }
      (meets s .timerTick .txBusy, meets s .timerTick .terminal)) = [(true, false), (false, false), (false, true)] := by
  decide

/-- R155, R147: a malformed start byte is met by the FULL start wait only. -/
theorem test_condition_badStart :
    [(Variant.full, (0x0A : Byte)), (.full, 0x0D), (.reduced, 0x0A)].map (fun p =>
      meets { fresh p.1 with ms := 8, rxq := [p.2] } .buWaitStart .badStart) = [true, false, false] := by decide

/-- R128: with no event pending a full register is drained. -/
theorem test_idle_drain : seen (step { running .full 1 0 false with hr := some 0x0A }) State.hr = some none := by decide

/-! ### Witnesses: the hypotheses of the statements can be met -/

theorem wired_running (v : Variant) (tc a : Nat) (oe : Bool) : Wired (running v tc a oe) := by
  cases v <;> exact ⟨(by decide : configLegal (tiny _) = true), rfl⟩

theorem wired_fresh (v : Variant) : Wired (fresh v) := by cases v <;> exact ⟨by decide, rfl⟩

theorem inputs_running (v : Variant) (tc a : Nat) (oe : Bool) : DataInputs (running v tc a oe) := fun l hl => by
  have : ∀ l ∈ (tiny v).dataBus, modeOf (running v tc a oe) l = some ⟨.input, .floating⟩ := by
    cases v <;> simp [tiny, running, bank, modeOf, lineCell, List.range, List.range.loop]
  exact ⟨_, this l hl, rfl⟩

theorem selected_running (tc a : Nat) (oe : Bool) : Selected (running .full tc a oe) := by
  cases oe <;> simp [Selected, tiny, running, bank, modeOf, latchOf, lineCell, List.range, List.range.loop, levelBit,
    Config.ctrlBus] <;> decide

theorem inputs_fresh (v : Variant) : DataInputs (fresh v) := fun l hl => by
  have : ∀ l ∈ (tiny v).dataBus, modeOf (fresh v) l = some ⟨.input, .floating⟩ := by cases v <;> decide
  exact ⟨_, this l hl, rfl⟩

/-- A tick about to start the dump, as a state of the invariant. -/
theorem inv_running : BlockInv { running .full 0 9 true with stim := [.tick] } :=
  ⟨⟨by decide, rfl, by decide, by decide⟩, ⟨by decide, by decide, by decide⟩, ⟨by decide, by decide, by decide, by decide⟩,
   ⟨by decide, by decide, by decide, by decide, by decide, fun _ => .inl (by decide),
    fun _ _ => by unfold addressAsDecoded; decide⟩⟩

/-- A dump in the middle of a read: outputs enabled, a byte held. -/
theorem inv_reading : BlockInv { running .full 1 0 false with hr := some 0x0A, txlog := [0x0A], stim := [.tick] } :=
  ⟨⟨by decide, rfl, by decide, by decide⟩, ⟨by decide, by decide, by decide⟩, ⟨by decide, by decide, by decide, by decide⟩,
   ⟨by decide, by decide, by decide, by decide, by decide, fun _ => .inr (by decide),
    fun _ _ => by unfold addressAsDecoded; decide⟩⟩

/-- The last counter value of the REDUCED variant. -/
theorem inv_reduced : BlockInv { running .reduced 0xFF 14 true with stim := [.tick] } :=
  ⟨⟨by decide, rfl, by decide, by decide⟩, ⟨by decide, by decide, by decide⟩, ⟨by decide, by decide, by decide, by decide⟩,
   ⟨by decide, by decide, by decide, by decide, by decide, fun _ => .inl (by decide), fun _ h => by cases h⟩⟩

theorem witness_DecodeOfEncodeIsIdentity : configLegal .observed = true ∧ Config.observed.variant = .full ∧
    wellFormed .observed (.seqP0NL 0) = true ∧ wellFormed .observed (.seqP3CR (2 ^ 19 - 1)) = true ∧
    wellFormed .observed (.busWrite .addr (2 ^ 40)) = true := by decide

theorem witness_CounterValuesHaveOneMeaning :
    configLegal (tiny .full) = true ∧ (tiny .full).variant = .full ∧ 64 ≤ 4 * 2 ^ (tiny .full).aw := by decide

theorem witness_CounterDecodeFollowsTheMasks :
    configLegal (tiny .full) = true ∧ (tiny .full).variant = .full ∧ 255 < 2 ^ (tiny .full).cw := by decide

theorem witness_StepRunsTheSelectedOperation :
    configLegal (running .full 64 15 true).cfg = true ∧ configLegal (running .reduced 255 15 true).cfg = true ∧
    decode (tiny .full) .mainStep (running .full 64 15 true).ms.val = .ok .buHalt ∧
    ((running .full 64 15 true).stim = [] ∧ (running .full 64 15 true).hr = none) ∧
    (let s : State := { running .full 64 15 true with hr := some 0x0D }; s.stim = [] ∧ s.hr ≠ none) ∧
    (fresh .full).armed = false ∧
    (running .full 64 15 true).armed = true ∧ 64 / 4 ≤ 2 ^ (tiny .full).aw ∧
    decode (tiny .full) .tcFull 64 = .ok .seqTerm ∧ decode (tiny .reduced) .tcReduced 255 = .ok .rseqP0 ∧
    [.main, .tick, .drain, .rx 0x0D, .rst].map (fun e => { running .full 64 15 true with stim := [e] }.stim.head?) =
      [some .main, some .tick, some .drain, some (.rx 0x0D), some .rst] :=
  ⟨by decide, by decide, rfl, ⟨rfl, rfl⟩, ⟨rfl, by decide⟩, rfl, rfl, by decide, rfl, rfl, rfl⟩

theorem witness_IllegalConfigurationIsRefused :
    configLegal { State.reset with cfg := { tiny .full with aw := 3 } }.cfg = false := by decide

theorem witness_CounterBeyondTerminalIsRefused : (running .full 0x44 0 true).armed = true ∧
    2 ^ (tiny .full).aw < 0x44 / 4 ∧ configLegal (tiny .full) = true ∧ (tiny .full).variant = .full ∧
    { running .full 0x44 0 true with stim := [.tick] }.stim.head? = some .tick := by decide

theorem witness_LineConfigureWritesOneMode : hasLine (fresh .full) ⟨2, 2⟩ = true := by decide

theorem witness_LineSetWritesOneLatch : hasLine (fresh .full) ⟨0, 3⟩ = true := by decide

theorem witness_LineGetReturnsThePin : modeOf (running .full 1 0 false) ⟨1, 7⟩ = some ⟨.input, .floating⟩ ∧
    7 < (tiny .full).dataBus.length ∧ (tiny .full).dataBus.Nodup ∧ (tiny .full).dataBus[7]? = some ⟨1, 7⟩ ∧
    driving (running .full 1 0 false) = true := by decide

theorem witness_ReadingAnOutputIsRefused : Wired (running .full 0 0 true) ∧
    (⟨0, 3⟩ : Line) ∈ busLines (running .full 0 0 true).cfg .addr ∧
    modeOf (running .full 0 0 true) ⟨0, 3⟩ = some ⟨.output, .pushPull⟩ := ⟨wired_running _ _ _ _, by decide, by decide⟩

theorem witness_LinesOutsideTheBusesFault : Wired (fresh .full) ∧ (⟨0, 4⟩ : Line) ∉ (fresh .full).cfg.allLines :=
  ⟨wired_fresh _, by decide⟩

theorem witness_BusConfigureSetsEveryLine : Wired (fresh .full) := wired_fresh _

theorem witness_BusWriteHoldsTheLowBits : Wired State.reset := ⟨by decide, rfl⟩

theorem witness_BusReadStaysBelowTheWidth : ∀ l ∈ busLines (running .full 1 0 true).cfg .data,
    ∃ md, modeOf (running .full 1 0 true) l = some md ∧ md.dir = .input := inputs_running _ _ _ _

theorem witness_BusReadReturnsTheCell : Wired (running .full 1 0 false) ∧ DataInputs (running .full 1 0 false) ∧
    driving (running .full 1 0 false) = true := ⟨wired_running _ _ _ _, inputs_running _ _ _ _, by decide⟩

theorem witness_CtrlSetDrivesTheNamedLevel : Wired (fresh .full) ∧ CtrlState.owner .weInactive = .we :=
  ⟨wired_fresh _, rfl⟩

theorem witness_CtrlSetRefusesForeignStates : CtrlState.owner .oeRead ≠ .ce := by decide

theorem witness_TrySendAcceptsOrRefuses : (fresh .full).hr = none ∧
    { fresh .full with hr := some 0x61 }.hr = some 0x61 := ⟨rfl, rfl⟩

theorem witness_EachByteCodeIsOffered : (Instr.txCr, (0x0D : Byte)) ∈ [(Instr.txSp, (0x20 : Byte)), (.txCr, 0x0D)] ∧
    (fresh .full).hr = none ∧ { fresh .full with hr := some 0x61 }.hr = some 0x61 := ⟨by decide, rfl, rfl⟩

theorem witness_RecvConsumesTheOldestByte : { fresh .full with rxq := [0x41, 0x0D] }.rxq = 0x41 :: [0x0D] ∧
    (fresh .full).rxq = [] := ⟨rfl, rfl⟩

theorem witness_StartByteEndsTheWait : { fresh .full with ms := 8, rxq := [0x0D] }.ms = 8 ∧
    { fresh .full with ms := 8, rxq := [0x0D] }.rxq = 0x0D :: [] ∧ (fresh .full).ms ≠ 8 ∧
    { fresh .full with ms := 8, rxq := [0x0A] }.rxq.head? ≠ some 0x0D := by decide

theorem witness_SeqTickRunsTheDecodedPhase : Wired (running .full 64 15 true) ∧ DataInputs (running .full 64 15 true) ∧
    (running .full 64 15 true).armed = true ∧ (running .full 64 15 true).tc / 4 ≤ 2 ^ (running .full 64 15 true).cfg.aw :=
  ⟨wired_running _ _ _ _, inputs_running _ _ _ _, rfl, by decide⟩

theorem witness_TerminalTicksAreInert : (running .full 64 15 true).armed = true ∧ terminal (running .full 64 15 true) = true := by decide

theorem witness_Phase0WithoutSeparator : Wired (running .full 60 14 true) ∧ 15 % 16 ≠ 0 :=
  ⟨wired_running _ _ _ _, by decide⟩

theorem witness_Phase0SeparatorAccepted : Wired (running .full 0 9 true) ∧ (running .full 0 9 true).hr = none ∧
    (Instr.seqP0 0 = .seqP0NL 0 ∨ (Instr.seqP0 0 = .seqP0 0 ∧ 0 % 16 = 0)) :=
  ⟨wired_running _ _ _ _, rfl, .inr ⟨rfl, rfl⟩⟩

theorem witness_Phase0SeparatorRefused : Wired { running .full 0 9 true with hr := some 0x0D } ∧
    { running .full 0 9 true with hr := some 0x0D }.hr = some 0x0D ∧
    (Instr.seqP0NL 0 = .seqP0NL 0 ∨ (Instr.seqP0NL 0 = .seqP0 0 ∧ 0 % 16 = 0)) :=
  ⟨wired_running .full 0 9 true, rfl, .inl rfl⟩

theorem witness_Phase1SamplesAndSends : Wired (running .full 61 15 false) ∧ DataInputs (running .full 61 15 false) ∧
    (running .full 61 15 false).hr = none ∧ driving (running .full 61 15 false) = true :=
  ⟨wired_running _ _ _ _, inputs_running _ _ _ _, rfl, by decide⟩

theorem witness_Phase1Refused : Wired { running .full 1 0 false with hr := some 0x0A } ∧
    DataInputs { running .full 1 0 false with hr := some 0x0A } ∧
    { running .full 1 0 false with hr := some 0x0A }.hr = some 0x0A :=
  ⟨wired_running .full 1 0 false, inputs_running .full 1 0 false, rfl⟩

theorem witness_Phase2SendsTheLowDigit : (running .full 2 0 true).hr = none ∧
    { running .full 2 0 true with hr := some 0x61 }.hr = some 0x61 := ⟨rfl, rfl⟩

theorem witness_Phase3SendsTheSeparator : (running .full 63 15 true).hr = none ∧
    ((Instr.seqP3 15 = .seqP3 15 ∧ (0x0D : Byte) = if 15 % 16 = 15 then 0x0D else 0x20) ∨
      (Instr.seqP3 15 = .seqP3CR 15 ∧ (0x0D : Byte) = 0x0D)) ∧
    { running .full 63 15 true with hr := some 0x35 }.hr = some 0x35 := ⟨rfl, .inl ⟨rfl, rfl⟩, rfl⟩

theorem witness_OneByteAndOneStepPerInvocation : isHandlerOp (.seqP3CR 15) = true ∧ offersByte (.seqP3CR 15) = true ∧
    { running .full 63 15 true with hr := some 0x35 }.hr = some 0x35 ∧
    ∃ t, exec (.seqP3CR 15) { running .full 63 15 true with hr := some 0x35 } = .next t := ⟨rfl, rfl, rfl, _, rfl⟩

theorem witness_BackpressureAdvancesOnce : Wired { running .full 63 15 true with hr := some 0x35 } ∧
    DataInputs { running .full 63 15 true with hr := some 0x35 } ∧ (tiny .full).variant = .full ∧
    (running .full 63 15 true).armed = true ∧ 63 / 4 < 2 ^ (tiny .full).aw ∧
    offersByte (decodeTcFull (tiny .full) 63) = true ∧
    { running .full 63 15 true with hr := some 0x35 }.hr = some 0x35 :=
  ⟨wired_running .full 63 15 true, inputs_running .full 63 15 true, rfl, rfl, by decide, rfl, rfl⟩

theorem witness_RefusedPhase1LosesTheSample : Wired { running .full 1 0 false with hr := some 0x0A } ∧
    DataInputs { running .full 1 0 false with hr := some 0x0A } ∧
    { running .full 1 0 false with hr := some 0x0A }.hr = some 0x0A :=
  ⟨wired_running .full 1 0 false, inputs_running .full 1 0 false, rfl⟩

theorem witness_ReadTransactionSamplesTheCell : Wired (running .full 60 14 true) ∧ DataInputs (running .full 60 14 true) ∧
    Selected (running .full 60 14 true) ∧ (running .full 60 14 true).hr = none ∧ 15 < 2 ^ (tiny .full).aw :=
  ⟨wired_running _ _ _ _, inputs_running _ _ _ _, selected_running _ _ _, rfl, by decide⟩

theorem witness_OneAddressContributesItsText : Wired (running .full 60 14 true) ∧ DataInputs (running .full 60 14 true) ∧
    Selected (running .full 60 14 true) ∧ (running .full 60 14 true).cfg.variant = .full ∧
    (running .full 60 14 true).armed = true ∧ (running .full 60 14 true).tc = 4 * 15 ∧ 15 < 2 ^ (tiny .full).aw :=
  ⟨wired_running _ _ _ _, inputs_running _ _ _ _, selected_running _ _ _, rfl, rfl, rfl, by decide⟩

theorem witness_FreeRunningDumpIsTheDevice : Wired (running .full 0 9 true) ∧ DataInputs (running .full 0 9 true) ∧
    Selected (running .full 0 9 true) ∧ (running .full 0 9 true).cfg.variant = .full ∧
    (running .full 0 9 true).armed = true ∧ (running .full 0 9 true).tc = 0 ∧ (running .full 0 9 true).txlog = [] :=
  ⟨wired_running _ _ _ _, inputs_running _ _ _ _, selected_running _ _ _, rfl, rfl, rfl, rfl⟩

theorem witness_ReducedTickDrivesTheCounter : Wired (running .reduced 255 14 true) ∧
    (running .reduced 255 14 true).armed = true ∧ (running .reduced 255 14 true).cfg.variant = .reduced :=
  ⟨wired_running _ _ _ _, rfl, rfl⟩

theorem witness_ReducedScanSequence : Wired (running .reduced 0 9 true) ∧ (running .reduced 0 9 true).armed = true ∧
    (running .reduced 0 9 true).cfg.variant = .reduced ∧ (running .reduced 0 9 true).tc = 0 ∧ 1 ≤ 299 :=
  ⟨wired_running _ _ _ _, rfl, rfl, rfl, by decide⟩

theorem witness_ReducedNeverSamplesOrSends : BlockInv { running .reduced 0xFF 14 true with stim := [.tick] } ∧
    (running .reduced 0xFF 14 true).cfg.variant = .reduced ∧ (running .reduced 0xFF 14 true).armed = true ∧
    { running .reduced 0xFF 14 true with stim := [.tick] }.stim.head? ≠ some .rst ∧
    ∃ t, step { running .reduced 0xFF 14 true with stim := [.tick] } = .next t :=
  ⟨inv_reduced, rfl, rfl, by decide, _, rfl⟩

theorem witness_BringUpConfiguresTheBuses : Wired (fresh .full) := wired_fresh _

theorem witness_ControlLatchesGetInactiveLevels : Wired (fresh .full) := wired_fresh _

theorem witness_ControlLinesBecomeOutputs : Wired (fresh .reduced) := wired_fresh _

theorem witness_ChipEnableIsAssertedInFullOnly : Wired (fresh .full) ∧ (fresh .full).cfg.variant = .full ∧
    Wired (fresh .reduced) ∧ (fresh .reduced).cfg.variant = .reduced := ⟨wired_fresh _, rfl, wired_fresh _, rfl⟩

theorem witness_StartWaitTakesOneByte : (fresh .full).cfg.variant = .full ∧
    { fresh .full with rxq := [0x0D, 0x0D] }.rxq = 0x0D :: [0x0D] ∧ { fresh .full with rxq := [0x0A] }.rxq = 0x0A :: [] ∧
    (0x0A : Byte) ≠ 0x0D ∧ (fresh .full).rxq = [] ∧ (fresh .reduced).cfg.variant = .reduced := by decide

theorem witness_TickRunsTheHandlerWhenArmed : (fresh .full).armed = false ∧ (running .full 64 15 true).armed = true ∧
    (running .full 64 15 true).cfg.variant = .full ∧ Wired (running .full 64 15 true) ∧
    DataInputs (running .full 64 15 true) ∧ 64 / 4 ≤ 2 ^ (tiny .full).aw ∧
    (running .reduced 255 15 true).armed = true ∧ (running .reduced 255 15 true).cfg.variant = .reduced :=
  ⟨rfl, rfl, rfl, wired_running _ _ _ _, inputs_running _ _ _ _, by decide, rfl, rfl⟩

theorem witness_StepKeepsTheShape : BlockInv { running .full 0 9 true with stim := [.tick] } ∧
    ∃ t, step { running .full 0 9 true with stim := [.tick] } = .next t := ⟨inv_running, _, rfl⟩

theorem witness_StepKeepsTheFlow : BlockInv { running .full 1 0 false with hr := some 0x0A, txlog := [0x0A], stim := [.tick] } ∧
    ∃ t, step { running .full 1 0 false with hr := some 0x0A, txlog := [0x0A], stim := [.tick] } = .next t :=
  ⟨inv_reading, _, rfl⟩

theorem witness_StepKeepsTheSerialOutput : BlockInv { running .full 0 9 true with stim := [.tick] } ∧
    ∃ t, step { running .full 0 9 true with stim := [.tick] } = .next t := ⟨inv_running, _, rfl⟩

theorem witness_StepKeepsTheWiring :
    BlockInv { running .full 1 0 false with hr := some 0x0A, txlog := [0x0A], stim := [.tick] } ∧
    ∃ t, step { running .full 1 0 false with hr := some 0x0A, txlog := [0x0A], stim := [.tick] } = .next t :=
  ⟨inv_reading, _, rfl⟩

theorem witness_NoStepStops : BlockInv { running .reduced 0xFF 14 true with stim := [.tick] } := inv_reduced

theorem witness_NoOperationWritesTheDevice : ∃ t, exec (.seqP1 0) (running .full 1 0 false) = .next t := ⟨_, rfl⟩

theorem witness_BusFamilyLeavesTheSequencerAlone : (∃ B v, Instr.busWrite .addr 15 = .busWrite B v) ∧
    ∃ t, exec (.busWrite .addr 15) (running .full 0 0 true) = .next t := ⟨⟨_, _, rfl⟩, _, rfl⟩

end Sys2Proof.Tests
end

