-- ==== Sys2Proof/Proofs/Scope.lean ====
section
/-! SUPPORT. What every operation keeps of the shape of the state (R9, R20, R25, R50, R56), and which operation a step
selects (R10, R31, R82, R135). -/

namespace Sys2Proof.Machine

variable {s t u : State} {i : Instr}

/-! ### The shape of the state -/

/-- What every operation keeps, on any state: the configuration, the Lines of the table in their order, the bound of
the counter, and the cells of the device. -/
structure SameShape (s t : State) : Prop where
  cfg     : t.cfg = s.cfg
  keys    : t.lines.map LineCell.line = s.lines.map LineCell.line
  counter : s.tc < 2 ^ s.cfg.cw → t.tc < 2 ^ s.cfg.cw
  mem     : t.mem = s.mem

theorem SameShape.refl (s : State) : SameShape s s := ⟨rfl, rfl, id, rfl⟩

theorem SameShape.trans (h : SameShape s t) (k : SameShape t u) : SameShape s u :=
  ⟨k.cfg.trans h.cfg, k.keys.trans h.keys, fun hc => h.cfg ▸ k.counter (h.cfg.symm ▸ h.counter hc),
    k.mem.trans h.mem⟩

/-- The answer of an operation whose next state is known. -/
theorem SameShape.of_next (h : SameShape s u) (ht : (.next u : Outcome State) = .next t) : SameShape s t :=
  Host.Outcome.next.inj ht ▸ h

/-- The shape depends on what every operation keeps. -/
theorem StructInv.of_sameShape (hs : StructInv s) (h : SameShape s t) : StructInv t where
  legal   := h.cfg ▸ hs.legal
  table   := by rw [h.keys, h.cfg]; exact hs.table
  counter := h.cfg ▸ h.counter hs.counter
  cells   := by rw [h.cfg, h.mem]; exact hs.cells

theorem popStim_sameShape (s : State) : SameShape s (popStim s) := ⟨rfl, rfl, id, rfl⟩

/-! ### The shared operations -/

theorem goTo_sameShape (n : Fin 11) (s : State) : SameShape s (goTo n s) := ⟨rfl, rfl, id, rfl⟩

/-- Log 8: the value an operation returned by name is not part of the shape. -/
theorem withResult_sameShape (x : OpResult) (s : State) : SameShape s { s with result := x } := ⟨rfl, rfl, id, rfl⟩

theorem configureLine_sameShape (l : Line) (md : Mode) (s : State) : SameShape s (configureLine l md s) :=
  ⟨rfl, keys_configureLine l md s, id, rfl⟩

theorem setLine_sameShape (l : Line) (b : Bool) (s : State) : SameShape s (setLine l b s) :=
  ⟨rfl, keys_setLine l b s, id, rfl⟩

theorem configureBus_sameShape (md : Mode) (ls : List Line) (s : State) : SameShape s (configureBus md ls s) :=
  ⟨by simp, by simp, by simp, by simp⟩

theorem writeBus_sameShape (ls : List Line) (v : Nat) (s : State) : SameShape s (writeBus ls v s) :=
  ⟨by simp, by simp, by simp, by simp⟩

theorem driveCtrl_sameShape (x : CtrlState) (s : State) : SameShape s (driveCtrl x s) := setLine_sameShape _ _ s

theorem sendByName_sameShape (b : Byte) (s : State) : SameShape s (sendByName b s) :=
  ⟨by simp, by simp, by simp, by simp⟩

/-- R20: the counter wraps at its width. -/
theorem advance_sameShape (s : State) : SameShape s (advance s) :=
  ⟨rfl, rfl, fun _ => Nat.mod_lt _ (by positivity), rfl⟩

/-- R108: an offer keeps the shape where what follows an accepted byte does. -/
theorem offer_sameShape (b : Byte) (s : State) {go : State → State} (hgo : ∀ u, SameShape u (go u)) :
    SameShape s (offer b s go) := by
  rcases offer_cases b s go with ⟨_, e⟩ | ⟨_, _, e⟩
  · rw [e]
    have accepted : SameShape s { s with hr := some b, txlog := s.txlog ++ [b] } := ⟨rfl, rfl, id, rfl⟩
    exact accepted.trans (hgo _)
  · rw [e]; exact .refl s

/-- R126: consuming a byte changes the receive queue only. -/
theorem recv_sameShape {b : Byte} (h : recv s = some (b, t)) : SameShape s t := by
  unfold recv at h
  split at h
  · cases h
  · cases h; exact ⟨rfl, rfl, id, rfl⟩

theorem getLine_sameShape {l : Line} {r : Bool × State} (h : getLine l s = .next r) : SameShape s r.2 := by
  obtain ⟨k, e⟩ := getLine_eq_next h
  rw [e]; exact ⟨rfl, rfl, id, rfl⟩

theorem readBus_sameShape {ls : List Line} {r : Nat × State} (h : readBus ls s = .next r) : SameShape s r.2 := by
  obtain ⟨k, e⟩ := readBus_eq_next h
  rw [e]; exact ⟨rfl, rfl, id, rfl⟩

/-- R39, R180: the reset cuts the drawn counter to its width and keeps the Lines of the table. -/
theorem hardReset_sameShape (s : State) : SameShape s (hardReset s) :=
  ⟨rfl, keys_resetLines s.draws s.lines, fun _ => Nat.mod_lt _ (by positivity), rfl⟩

/-- R50 (b): an operation on a Line that answers is the operation itself. -/
theorem onLine_eq_next {α : Type} {l : Line} {o : Outcome α} {a : α} (h : onLine s l o = .next a) : o = .next a := by
  unfold onLine at h
  split at h
  · exact h
  · cases h

/-- R50 (b): an operation on a bus that answers is the operation itself. -/
theorem onBus_eq_next {α : Type} {ls : List Line} {o : Outcome α} {a : α} (h : onBus s ls o = .next a) :
    o = .next a := by
  unfold onBus at h
  split at h
  · exact h
  · cases h

/-! ### The operations -/

theorem fullOnly_sameShape (hf : SameShape s t) (hr : SameShape s u) : SameShape s (fullOnly s t u) := by
  unfold fullOnly
  split
  · exact hf
  · exact hr

theorem waitStart_sameShape (s : State) : SameShape s (waitStart s) := by
  rcases waitStart_cases s with ⟨_, e⟩ | ⟨_, _, e⟩ | ⟨_, _, _, _, e⟩ <;> rw [e] <;> exact ⟨rfl, rfl, id, rfl⟩

theorem phase0_sameShape (nl : Bool) (a : Nat) (s : State) : SameShape s (phase0 nl a s) := by
  have enable : ∀ u, SameShape u (advance (driveCtrl .oeRead u)) := fun u =>
    (driveCtrl_sameShape .oeRead u).trans (advance_sameShape _)
  have driven := writeBus_sameShape s.cfg.addrBus a s
  unfold phase0
  split
  · exact driven.trans (offer_sameShape codeNl _ enable)
  · exact driven.trans (enable _)

theorem phase1Emit_sameShape (s : State) : SameShape s (phase1Emit s) :=
  (driveCtrl_sameShape .oeOff s).trans (offer_sameShape _ _ advance_sameShape)

theorem execSeqP1_sameShape {a : Nat} (h : execSeqP1 a s = .next t) : SameShape s t := by
  obtain ⟨r, hr, h⟩ := andThen_eq_next h
  have sampled : SameShape r.2 { r.2 with sb := BitVec.ofNat 8 r.1 } := ⟨rfl, rfl, id, rfl⟩
  exact (((readBus_sameShape hr).trans sampled).trans (phase1Emit_sameShape _)).of_next h

theorem dispatchTick_sameShape (h : dispatchTick s = .next t) : SameShape s t := by
  simp only [dispatchTick] at h
  split at h
  · cases h
  · split at h
    · exact (SameShape.refl s).of_next h
    · split at h
      · split at h <;> exact (phase0_sameShape _ _ s).of_next h
      · exact execSeqP1_sameShape h
      · exact (offer_sameShape _ s advance_sameShape).of_next h
      · split at h <;> exact (offer_sameShape _ s advance_sameShape).of_next h

theorem execSeqTick_sameShape (h : execSeqTick s = .next t) : SameShape s t := by
  unfold execSeqTick at h
  split at h
  · exact dispatchTick_sameShape h
  · exact (SameShape.refl s).of_next h

theorem execRseqP0_sameShape (h : execRseqP0 s = .next t) : SameShape s t := by
  unfold execRseqP0 at h
  split at h
  · exact ((writeBus_sameShape _ _ s).trans (advance_sameShape _)).of_next h
  · exact (SameShape.refl s).of_next h

theorem execTimerTick_sameShape (h : execTimerTick s = .next t) : SameShape s t := by
  rcases tick_cases h with ⟨_, rfl⟩ | ⟨_, _, rfl⟩ | ⟨_, _, hd⟩
  · exact .refl _
  · exact (writeBus_sameShape _ _ s).trans (advance_sameShape _)
  · exact dispatchTick_sameShape hd

theorem execRelayRecv_sameShape (h : execRelayRecv s = .next t) : SameShape s t := by
  unfold execRelayRecv at h
  split at h
  · exact (SameShape.refl s).of_next h
  · exact ((recv_sameShape ‹_›).trans (withResult_sameShape _ _)).of_next h

theorem execRxStart_sameShape (h : execRxStart s = .next t) : SameShape s t := by
  unfold execRxStart at h
  split at h
  · exact (SameShape.refl s).of_next h
  · have consumed := recv_sameShape ‹_›
    split at h
    · exact (consumed.trans (goTo_sameShape 9 _)).of_next h
    · exact (SameShape.refl s).of_next h

theorem execLineGet_sameShape {l : Line} (h : execLineGet l s = .next t) : SameShape s t := by
  obtain ⟨r, hr, h⟩ := andThen_eq_next h
  exact ((getLine_sameShape hr).trans (withResult_sameShape _ _)).of_next h

theorem execBusRead_sameShape {B : BusId} (h : execBusRead B s = .next t) : SameShape s t := by
  obtain ⟨r, hr, h⟩ := andThen_eq_next h
  exact ((readBus_sameShape hr).trans (withResult_sameShape _ _)).of_next h

theorem execCtrlSet_sameShape {c : CtrlLine} {x : CtrlState} (h : execCtrlSet c x s = .next t) : SameShape s t := by
  unfold execCtrlSet at h
  split at h
  · exact (driveCtrl_sameShape x s).of_next (onLine_eq_next h)
  · cases h

/-- R139: the three inactive levels. -/
theorem execBuCtrlLevels_sameShape (h : execBuCtrlLevels s = .next t) : SameShape s t :=
  ((((driveCtrl_sameShape .oeOff s).trans (driveCtrl_sameShape .ceDeselected _)).trans
    (driveCtrl_sameShape .weInactive _)).trans (goTo_sameShape 4 _)).of_next h

/-- R142: the counter is initialised to 0, which fits every width. -/
theorem execBuTcInit_sameShape (h : execBuTcInit s = .next t) : SameShape s t := by
  have cleared : SameShape s { s with tc := 0 } := ⟨rfl, rfl, fun _ => by positivity, rfl⟩
  exact (cleared.trans (goTo_sameShape 7 _)).of_next h

/-- Every operation, on every state, keeps the configuration, the Lines of the table, the bound of the counter and the
device's cells. -/
theorem exec_sameShape (h : exec i s = .next t) : SameShape s t := by
  cases i with
  | seqTerm | buHalt => exact (SameShape.refl s).of_next h
  | seqP0NL a => exact (phase0_sameShape true a s).of_next h
  | seqP0 a => exact (phase0_sameShape (blockFirst a) a s).of_next h
  | seqP1 a => exact execSeqP1_sameShape (a := a) h
  | seqP2 | seqP3CR | seqP3 => exact (offer_sameShape _ s advance_sameShape).of_next h
  | rseqP0 => exact execRseqP0_sameShape h
  | seqTick => exact execSeqTick_sameShape h
  | timerTick => exact execTimerTick_sameShape h
  | txHex0 | txHex1 | txHex2 | txHex3 | txHex4 | txHex5 | txHex6 | txHex7 | txHex8 | txHex9
  | txHexa | txHexb | txHexc | txHexd | txHexe | txHexf | txNl | txSp | txCr | relayTrySend =>
    exact (sendByName_sameShape _ s).of_next h
  | rxStart => exact execRxStart_sameShape h
  | relayRecv => exact execRelayRecv_sameShape h
  | lineConfigure l m e => exact (configureLine_sameShape l ⟨m, e⟩ s).of_next (onLine_eq_next h)
  | lineSet l b => exact (setLine_sameShape l b s).of_next (onLine_eq_next h)
  | lineGet l => exact execLineGet_sameShape h
  | busConfigure B m e => exact (configureBus_sameShape ⟨m, e⟩ _ s).of_next (onBus_eq_next h)
  | busWrite B v => exact (writeBus_sameShape _ v s).of_next (onBus_eq_next h)
  | busRead B => exact execBusRead_sameShape h
  | ctrlSet c x => exact execCtrlSet_sameShape h
  | buClocks | buSerialCfg => exact (goTo_sameShape _ s).of_next h
  | buCfgAddr | buCfgData | buCfgCtrl =>
    exact ((configureBus_sameShape _ _ s).trans (goTo_sameShape _ _)).of_next h
  | buCtrlLevels => exact execBuCtrlLevels_sameShape h
  | buCeAssert =>
    exact ((fullOnly_sameShape (driveCtrl_sameShape .ceSelected s) (.refl s)).trans (goTo_sameShape 6 _)).of_next h
  | buTcInit => exact execBuTcInit_sameShape h
  | buWaitStart => exact (fullOnly_sameShape (waitStart_sameShape s) (goTo_sameShape 9 s)).of_next h
  | buArm =>
    have armed : SameShape s { s with armed := true } := ⟨rfl, rfl, id, rfl⟩
    exact (armed.trans (goTo_sameShape 10 _)).of_next h
  | txdDrain =>
    have drained : SameShape s { s with hr := none } := ⟨rfl, rfl, id, rfl⟩
    exact drained.of_next h
  | rxsSend b =>
    have queued : SameShape s { s with rxq := s.rxq ++ [b] } := ⟨rfl, rfl, id, rfl⟩
    exact queued.of_next h
  | rst => exact (hardReset_sameShape s).of_next h

/-- A step that answers keeps what its operation keeps. -/
theorem step_sameShape (h : step s = .next t) : SameShape s t := by
  obtain ⟨_, he⟩ := step_eq_next h
  exact (popStim_sameShape s).trans (exec_sameShape he)

/-! ### What a step selects -/

/-- The operation that a pending event stands for: `fetch` where an event is pending (`fetch_of_head`). -/
def eventInstr (s : State) : Stimulus → Instr
  | .main => mainInstr s
  | .tick => .timerTick
  | .drain => .txdDrain
  | .rx b => .rxsSend b
  | .rst => .rst

/-- R82: the next event of the trace selects the operation. -/
theorem fetch_of_head {e : Stimulus} (h : s.stim.head? = some e) : fetch s = eventInstr s e := by
  obtain ⟨es, hs⟩ := List.head?_eq_some_iff.1 h
  cases e <;> simp [fetch, hs, eventInstr]

theorem fetch_idle_free (h : s.stim = []) (hr : s.hr = none) : fetch s = mainInstr s := by
  simp [fetch, h, idleInstr, txe, hr]

theorem fetch_idle_full (h : s.stim = []) (hr : s.hr ≠ none) : fetch s = .txdDrain := by
  simp [fetch, h, idleInstr, txe, hr]

/-- A step with an event pending, in a legal configuration. -/
theorem step_of_head {e : Stimulus} (hl : configLegal s.cfg = true) (h : s.stim.head? = some e) :
    step s = exec (eventInstr s e) (popStim s) := by
  rw [step_of_legal hl, fetch_of_head h]

/-- R31, R135: every value of `MS` decodes, to the step that the main flow runs. -/
theorem decode_mainStep (s : State) : decode s.cfg .mainStep s.ms.val = .ok (mainInstr s) := by
  have hms : decodeMs s.ms.val = some (mainSteps[s.ms.val]'s.ms.isLt) := List.getElem?_eq_getElem _
  simp [decode, mainInstr, hms]

/-- R70: a number that decodes as a FULL counter value decodes by the rows of `TC-FULL`. -/
theorem decode_tcFull_ok {cfg : Config} {w : Nat} (h : decode cfg .tcFull w = .ok i) : i = decodeTcFull cfg w := by
  simp only [decode] at h
  split at h
  · cases h; rfl
  · cases h

/-- R71: a number that decodes as a REDUCED counter value is `RSEQ.P0`. -/
theorem decode_tcReduced_ok {cfg : Config} {w : Nat} (h : decode cfg .tcReduced w = .ok i) : i = .rseqP0 := by
  simp only [decode] at h
  split at h
  · cases h; rfl
  · cases h

/-- R156, log 11: a tick that is not enabled has no effect. -/
theorem timerTick_unarmed (h : s.armed = false) : execTimerTick s = .next s := by
  simp [execTimerTick, h]

/-- R120, R156: a serviced tick of the REDUCED variant is `RSEQ.P0`. -/
theorem timerTick_eq_rseqP0 (ha : s.armed = true) (hv : s.cfg.variant = .reduced) :
    execTimerTick s = exec .rseqP0 s := by
  simp [execTimerTick, ha, hv, exec]

end Sys2Proof.Machine

/-! ### The statements -/

namespace Sys2Proof.Proofs

open Sys2Proof.Machine

/-- Settles O54. Every operation keeps the shape on any state (`exec_sameShape`), so of the invariant only its first
part is needed. -/
theorem stepKeepsTheShape : Obligations.StepKeepsTheShape :=
  fun _ _ hs h => hs.struct.of_sameShape (step_sameShape h)

/-- Settles O6, one clause for each way a move is selected. -/
theorem stepRunsTheSelectedOperation : Obligations.StepRunsTheSelectedOperation := by
  intro s hl
  refine ⟨fun i hm hi => ?main, fun ht ha => ?unarmed, fun i ht ha hv hle hi => ?full, fun i ht ha hv hi => ?reduced,
    fun hd => ?drain, fun b hb => step_of_head hl hb, fun hr => step_of_head hl hr⟩
  case main =>
    obtain rfl : mainInstr s = i := Except.ok.inj ((decode_mainStep s).symm.trans hi)
    rcases hm with ⟨hn, hr⟩ | hm
    · rw [step_of_legal hl, fetch_idle_free hn hr]
    · exact step_of_head hl hm
  case unarmed => exact (step_of_head hl ht).trans (timerTick_unarmed (s := popStim s) ha)
  case full =>
    rw [decode_tcFull_ok hi]
    exact (step_of_head hl ht).trans (timerTick_full (s := popStim s) ha hv hle)
  case reduced =>
    rw [decode_tcReduced_ok hi]
    exact (step_of_head hl ht).trans (timerTick_eq_rseqP0 (s := popStim s) ha hv)
  case drain =>
    rcases hd with ⟨hn, hr⟩ | hd
    · rw [step_of_legal hl, fetch_idle_full hn hr]
    · exact step_of_head hl hd

/-- Settles O7: the step looks at the configuration before anything else. -/
theorem illegalConfigurationIsRefused : Obligations.IllegalConfigurationIsRefused := by
  intro s h
  simp [step, h]

end Sys2Proof.Proofs
end

/-! SUPPORT. What every step keeps of the main flow and the counter (R30, R31, R107, R142, R145) and of the serial
output (R35, R74, R121, R125, R183), and that the invariant of the block holds at reset (R39). -/

namespace Sys2Proof.Machine

variable {s t u : State}

/-! ### What a move can do -/

/-- R82: everything a step can do, on the state without the consumed event: a move of the main flow, a serviced tick,
a drain, a received byte, or a reset. -/
theorem step_cases (h : step s = .next t) :
    exec (mainInstr (popStim s)) (popStim s) = .next t ∨ execTimerTick (popStim s) = .next t ∨
    t = { popStim s with hr := none } ∨ (∃ b, t = { popStim s with rxq := s.rxq ++ [b] }) ∨
    t = hardReset (popStim s) := by
  obtain ⟨_, h⟩ := step_eq_next h
  rcases fetch_cases s with e | e | e | ⟨b, e⟩ | ⟨_, e⟩ <;> rw [e] at h
  · exact .inl h
  · exact .inr (.inl h)
  · exact .inr (.inr (.inl (Host.Outcome.next.inj h).symm))
  · exact .inr (.inr (.inr (.inl ⟨b, (Host.Outcome.next.inj h).symm⟩)))
  · exact .inr (.inr (.inr (.inr (Host.Outcome.next.inj h).symm)))

/-- Everything a move of the main flow can do (R135 to R147), by the stretch of `MS` it starts in; `mainMove` ties it to
the operations. -/
inductive MainMove (s : State) : State → Prop where
  /-- R136 to R141: up to the chip-enable only the Line table is written. -/
  | wires (cs : List LineCell) {n : Fin 11} (hs : s.ms.val ≤ 5) (hn : n.val ≤ 6) :
    MainMove s { s with lines := cs, ms := n }
  /-- R142: the counter is initialised. -/
  | counter (hs : s.ms = 6) : MainMove s { s with tc := 0, ms := 7 }
  /-- R143, R144: until the start byte has come only the receive queue is written. -/
  | start (q : List Byte) {n : Fin 11} (h7 : 7 ≤ s.ms.val) (h8 : s.ms.val ≤ 8) (hn : n.val ≤ 9) :
    MainMove s { s with rxq := q, ms := n }
  /-- R145: the timer interrupt is armed. -/
  | arm (hs : s.ms = 9) : MainMove s { s with armed := true, ms := 10 }
  /-- R146: the permanent wait. -/
  | halt (hs : s.ms = 10) : MainMove s s

/-- R135, R147: a step that only the FULL variant performs. -/
theorem fullOnly_cases (s t u : State) : fullOnly s t u = t ∨ fullOnly s t u = u := by
  unfold fullOnly
  split
  · exact .inl rfl
  · exact .inr rfl

/-- R144, R147: the start wait of either variant writes the receive queue and `MS` only, which goes to 9 at most. -/
theorem startWait_cases (hs : s.ms = 8) :
    ∃ (q : List Byte) (m : Fin 11), m.val ≤ 9 ∧ fullOnly s (waitStart s) (goTo 9 s) = { s with rxq := q, ms := m } := by
  rcases fullOnly_cases s (waitStart s) (goTo 9 s) with e | e <;> rw [e]
  · rcases waitStart_cases s with ⟨_, e⟩ | ⟨q, _, e⟩ | ⟨_, q, _, _, e⟩ <;> rw [e]
    · exact ⟨s.rxq, s.ms, by simp [hs], rfl⟩
    · exact ⟨q, 9, by simp, rfl⟩
    · exact ⟨q, 8, by simp, rfl⟩
  · exact ⟨s.rxq, 9, by simp, rfl⟩

/-- A step of bring-up that writes the Line table and then moves on. -/
theorem MainMove.of_wires {n : Fin 11} (hs : s.ms.val ≤ 5) (hn : n.val ≤ 6) (hu : u = { s with lines := u.lines })
    (h : (.next (goTo n u) : Outcome State) = .next t) : MainMove s t := by
  obtain rfl := Host.Outcome.next.inj h
  rw [hu]
  exact .wires u.lines hs hn

theorem mainMove (h : exec (mainInstr s) s = .next t) : MainMove s t := by
  rcases mainInstr_cases s with ⟨hm, e⟩ | ⟨hm, e⟩ | ⟨hm, e⟩ | ⟨hm, e⟩ | ⟨hm, e⟩ | ⟨hm, e⟩ | ⟨hm, e⟩ | ⟨hm, e⟩ | ⟨hm, e⟩ |
    ⟨hm, e⟩ | ⟨hm, e⟩ <;> rw [e] at h
  · exact .of_wires (by simp [hm]) (by decide) rfl h
  · exact .of_wires (by simp [hm]) (by decide) (configureBus_eq _ _ s) h
  · exact .of_wires (by simp [hm]) (by decide) (configureBus_eq _ _ s) h
  · exact .of_wires (by simp [hm]) (by decide) rfl h
  · exact .of_wires (by simp [hm]) (by decide) (configureBus_eq _ _ s) h
  · refine .of_wires (by simp [hm]) (by decide) ?_ h
    rcases fullOnly_cases s (driveCtrl .ceSelected s) s with e | e <;> rw [e]
    rfl
  · cases h; exact .counter hm
  · cases h; exact .start s.rxq (by simp [hm]) (by simp [hm]) (by simp)
  · obtain ⟨q, m, hq, e⟩ := startWait_cases hm
    obtain rfl : { s with rxq := q, ms := m } = t := e ▸ Host.Outcome.next.inj h
    exact .start q (by simp [hm]) (by simp [hm]) hq
  · cases h; exact .arm hm
  · cases h; exact .halt hm

/-- What an invocation of the FULL handler does to the main flow, the counter and the relay; `handlerMove` ties it to the
dispatch. -/
structure HandlerMove (s t : State) : Prop where
  cfg     : t.cfg = s.cfg
  ms      : t.ms = s.ms
  armed   : t.armed = s.armed
  /-- R107: the counter stays or, below the terminal value, advances by one. -/
  counter : t.tc = s.tc ∨ (s.tc / 4 < 2 ^ s.cfg.aw ∧ t.tc = s.tc + 1)
  /-- R74, R125: the relay stays as it is or accepts one of the 19 codes. -/
  relay   : (t.hr = s.hr ∧ t.txlog = s.txlog) ∨ ∃ b ∈ sentCodes, t.hr = some b ∧ t.txlog = s.txlog ++ [b]

theorem handlerMove (hw : Wired s) (hd : DataInputs s) (hv : s.cfg.variant = .full) (h : dispatchTick s = .next t) :
    HandlerMove s t := by
  rcases handler_cases hw hd hv h with rfl | ⟨hl, _, _, rfl⟩ | ⟨hl, _, _, rfl⟩ | ⟨_, _, rfl⟩ |
    ⟨hl, _, _, _, b, hb, rfl⟩ | ⟨_, _, _, _, rfl⟩ | ⟨hl, _, b, hb, rfl⟩
  · exact ⟨rfl, rfl, rfl, .inl rfl, .inl ⟨rfl, rfl⟩⟩
  · exact ⟨rfl, rfl, rfl, .inr ⟨hl, rfl⟩, .inl ⟨rfl, rfl⟩⟩
  · exact ⟨rfl, rfl, rfl, .inr ⟨hl, rfl⟩, .inr ⟨codeNl, by decide, rfl, rfl⟩⟩
  · exact ⟨rfl, rfl, rfl, .inl rfl, .inl ⟨rfl, rfl⟩⟩
  · exact ⟨rfl, rfl, rfl, .inr ⟨hl, rfl⟩, .inr ⟨b, hb, rfl, rfl⟩⟩
  · exact ⟨rfl, rfl, rfl, .inl rfl, .inl ⟨rfl, rfl⟩⟩
  · exact ⟨rfl, rfl, rfl, .inr ⟨hl, rfl⟩, .inr ⟨b, hb, rfl, rfl⟩⟩

/-! ### The main flow and the counter -/

/-- Before arming, the flow asks only for a cleared counter from `MS = 7` on (R142). -/
theorem FlowInv.of_unarmed (ha : t.armed = false) (hm : t.ms.val ≤ 9) (htc : 7 ≤ t.ms.val → t.tc = 0) : FlowInv t where
  armedAtHalt   := ⟨fun h => absurd (ha.symm.trans h) (by decide), fun h => absurd hm (by simp [h])⟩
  zeroAtArming  := fun h _ => htc h
  neverPastTerm := fun h => absurd (ha.symm.trans h) (by decide)

/-- Once armed, the flow asks for the permanent wait and, in FULL, for a counter not past the terminal value (R107). -/
theorem FlowInv.of_armed (ha : t.armed = true) (hm : t.ms = 10)
    (htc : t.cfg.variant = .full → t.tc ≤ 4 * 2 ^ t.cfg.aw) : FlowInv t where
  armedAtHalt   := by simp [ha, hm]
  zeroAtArming  := fun _ h => absurd (ha.symm.trans h) (by decide)
  neverPastTerm := fun _ => htc

/-- R30: before the permanent wait the block is not armed. -/
theorem FlowInv.unarmed (hs : FlowInv s) (hm : s.ms.val ≤ 9) : s.armed = false :=
  Bool.eq_false_iff.2 fun ha => absurd hm (by simp [hs.armedAtHalt.1 ha])

theorem FlowInv.of_mainMove (hs : FlowInv s) (h : MainMove s t) : FlowInv t := by
  cases h with
  | wires cs hm hn =>
    exact .of_unarmed (hs.unarmed (by omega)) (Nat.le_trans hn (by decide))
      fun h => absurd (Nat.le_trans h hn) (by decide)
  | counter hm => exact .of_unarmed (hs.unarmed (by simp [hm])) (by simp) fun _ => rfl
  | start q h7 h8 hn =>
    have hu := hs.unarmed (by omega)
    exact .of_unarmed hu hn fun _ => hs.zeroAtArming h7 hu
  | arm hm =>
    have h0 : s.tc = 0 := hs.zeroAtArming (by simp [hm]) (hs.unarmed (by simp [hm]))
    exact .of_armed rfl rfl fun _ => by simp [h0]
  | halt hm => exact hs

/-- R107, R120: a serviced tick keeps the flow; in FULL the counter advances only below the terminal value. -/
theorem FlowInv.of_tick (hi : BlockInv s) (h : execTimerTick s = .next t) : FlowInv t := by
  rcases tick_cases h with ⟨_, rfl⟩ | ⟨ha, hv, rfl⟩ | ⟨ha, hv, hd⟩
  · exact hi.flow
  · exact .of_armed (by simpa using ha) (by simpa using hi.flow.armedAtHalt.1 ha) fun hv' => by simp [hv] at hv'
  · have hm := handlerMove hi.wired hi.dataInputs hv hd
    refine .of_armed (hm.armed.trans ha) (hm.ms.trans (hi.flow.armedAtHalt.1 ha)) fun _ => ?_
    have before : s.tc ≤ 4 * 2 ^ s.cfg.aw := hi.flow.neverPastTerm ha hv
    rw [hm.cfg]
    rcases hm.counter with e | ⟨hl, e⟩ <;> omega

theorem FlowInv.of_step (hi : BlockInv s) (h : step s = .next t) : FlowInv t := by
  have hp := popStim_inv hi
  rcases step_cases h with h | h | rfl | ⟨_, rfl⟩ | rfl
  · exact hp.flow.of_mainMove (mainMove h)
  · exact .of_tick hp h
  · exact ⟨hp.flow.armedAtHalt, hp.flow.zeroAtArming, hp.flow.neverPastTerm⟩
  · exact ⟨hp.flow.armedAtHalt, hp.flow.zeroAtArming, hp.flow.neverPastTerm⟩
  · exact .of_unarmed rfl (by simp) (by simp)

/-! ### The serial output -/

/-- With the relay as it was and the block not disarmed, the serial output stays well formed. -/
theorem SerialInv.of_sameRelay (hs : SerialInv s) (hc : t.cfg = s.cfg) (ha : t.armed = false → s.armed = false)
    (hr : t.hr = s.hr) (hl : t.txlog = s.txlog) : SerialInv t where
  heldIsLast    := by rw [hr, hl]; exact hs.heldIsLast
  onlyCodes     := by rw [hl]; exact hs.onlyCodes
  silentUnarmed := fun h => hl.trans (hs.silentUnarmed (ha h))
  silentReduced := fun h => hl.trans (hs.silentReduced (hc ▸ h))

/-- R125: an armed FULL block that has one of the 19 codes accepted. -/
theorem SerialInv.of_accepted {b : Byte} (hs : SerialInv s) (ha : t.armed = true) (hv : t.cfg.variant = .full)
    (hb : b ∈ sentCodes) (hr : t.hr = some b) (hl : t.txlog = s.txlog ++ [b]) : SerialInv t where
  heldIsLast    := by rw [hr, hl]; simp
  onlyCodes     := fun c hc => by
    rw [hl, List.mem_append, List.mem_singleton] at hc
    rcases hc with hc | rfl
    · exact hs.onlyCodes c hc
    · exact hb
  silentUnarmed := fun h => absurd (ha.symm.trans h) (by decide)
  silentReduced := fun h => absurd (hv.symm.trans h) (by decide)

/-- A block that has sent nothing and holds no byte. -/
theorem SerialInv.of_silent (hr : t.hr = none) (hl : t.txlog = []) : SerialInv t where
  heldIsLast    := by simp [hr]
  onlyCodes     := by simp [hl]
  silentUnarmed := fun _ => hl
  silentReduced := fun _ => hl

/-- The main flow does not touch the relay, and never disarms. -/
theorem SerialInv.of_mainMove (hs : SerialInv s) (h : MainMove s t) : SerialInv t := by
  cases h with
  | wires | counter | start => exact hs.of_sameRelay rfl id rfl rfl
  | arm => exact hs.of_sameRelay rfl (fun h => nomatch h) rfl rfl
  | halt => exact hs

/-- R121, R125: only the FULL handler sends, and only the 19 codes. -/
theorem SerialInv.of_tick (hi : BlockInv s) (h : execTimerTick s = .next t) : SerialInv t := by
  rcases tick_cases h with ⟨_, rfl⟩ | ⟨_, _, rfl⟩ | ⟨ha, hv, hd⟩
  · exact hi.serial
  · exact hi.serial.of_sameRelay (by simp) (by simp) (by simp) (by simp)
  · have hm := handlerMove hi.wired hi.dataInputs hv hd
    rcases hm.relay with ⟨hr, hl⟩ | ⟨b, hb, hr, hl⟩
    · exact hi.serial.of_sameRelay hm.cfg hm.armed.symm.trans hr hl
    · exact hi.serial.of_accepted (hm.armed.trans ha) (hm.cfg ▸ hv) hb hr hl

theorem SerialInv.of_step (hi : BlockInv s) (h : step s = .next t) : SerialInv t := by
  have hp := popStim_inv hi
  rcases step_cases h with h | h | rfl | ⟨_, rfl⟩ | rfl
  · exact hp.serial.of_mainMove (mainMove h)
  · exact .of_tick hp h
  · exact ⟨by simp, hp.serial.onlyCodes, hp.serial.silentUnarmed, hp.serial.silentReduced⟩
  · exact hp.serial.of_sameRelay rfl id rfl rfl
  · exact .of_silent rfl rfl

/-! ### Reset -/

/-- A table of fresh cells lists the Lines it was made for. -/
theorem keys_freshCells (ls : List Line) : (ls.map freshCell).map LineCell.line = ls := by
  simp [Function.comp_def, freshCell]

/-- R39: in a table of fresh cells every Line is a floating input. -/
theorem modeOf_freshCells {ls : List Line} {l : Line} (hs : s.lines = ls.map freshCell) (hl : l ∈ ls) :
    modeOf s l = some ⟨.input, .floating⟩ := by
  obtain ⟨md, hm⟩ := hasLine_iff_mode.1 (hasLine_of_mem (s := s) (k := l) (by rwa [hs, keys_freshCells]))
  obtain ⟨c, hc, rfl⟩ := Option.map_eq_some_iff.1 hm
  have hmem : c ∈ ls.map freshCell := hs ▸ List.mem_of_find?_eq_some hc
  obtain ⟨k, _, rfl⟩ := List.mem_map.1 hmem
  exact hm

/-- R39: after reset every Line of the buses is a floating input. -/
theorem modeOf_reset {l : Line} (hl : l ∈ State.reset.cfg.allLines) :
    modeOf State.reset l = some ⟨.input, .floating⟩ :=
  modeOf_freshCells rfl hl

theorem structInv_reset : StructInv State.reset where
  legal   := by decide
  table   := keys_freshCells _
  counter := Nat.two_pow_pos _
  cells   := rfl

/-- R39: at `MS = 0` the wires are asked for their modes only. -/
theorem wiringInv_reset : WiringInv State.reset where
  dataFloating _ hl := modeOf_reset (mem_allLines.2 (.inr (.inl hl)))
  addrModes _ hl    := modeOf_reset (mem_allLines.2 (.inl hl))
  ctrlModes _ hl    := modeOf_reset (mem_allLines.2 (.inr (.inr hl)))
  weInactive h      := absurd h (by decide)
  ceLevel h         := absurd h (by decide)
  oeLevel h         := absurd h (by decide)
  address h         := absurd h (by decide)

end Sys2Proof.Machine

/-! ### The statements -/

namespace Sys2Proof.Proofs

open Sys2Proof.Machine

/-- Settles O55, by what each agent's move does to `MS`, `ARMED` and the counter. -/
theorem stepKeepsTheFlow : Obligations.StepKeepsTheFlow := fun _ _ => FlowInv.of_step

/-- Settles O56, by what each agent's move does to the holding register and the log. -/
theorem stepKeepsTheSerialOutput : Obligations.StepKeepsTheSerialOutput := fun _ _ => SerialInv.of_step

/-- Settles O52: every cell of the reset table is a fresh one. -/
theorem resetStateAsTheSpecFixesIt : Obligations.ResetStateAsTheSpecFixesIt :=
  ⟨rfl, rfl, rfl, rfl, rfl, fun _ => modeOf_reset⟩

/-- Settles O53, part by part; at reset the block is unarmed and silent. -/
theorem invariantAtReset : Obligations.InvariantAtReset where
  struct := structInv_reset
  flow   := .of_unarmed rfl (by decide) fun _ => rfl
  serial := .of_silent rfl rfl
  wiring := wiringInv_reset

end Sys2Proof.Proofs

/-! SUPPORT. The read transaction (R51): phase 0 makes the device show the addressed cell and phase 1 takes the sample
(R64, R102, R103); no operation writes a cell (R56); and a Line outside the three buses is not held (R50). -/

namespace Sys2Proof.Machine

variable {s t : State} {a : Nat}

/-! ### Lines the block does not hold -/

/-- R25: in a wired state the block holds exactly the Lines of the three buses. -/
theorem Wired.hasLine_iff (h : Wired s) {l : Line} : hasLine s l = true ↔ l ∈ s.cfg.allLines := by
  refine ⟨fun hl => ?_, h.has⟩
  obtain ⟨c, hc⟩ := Option.isSome_iff_exists.1 hl
  rw [← h.2, ← lineCell_line hc]
  exact List.mem_map_of_mem (List.mem_of_find?_eq_some hc)

theorem onLine_of_missing {α : Type} {l : Line} (h : ¬ hasLine s l = true) (o : Outcome α) :
    onLine s l o = .fault (.noSuchLine l) := by
  simp [onLine, h]

theorem getLine_of_missing {l : Line} (h : ¬ hasLine s l = true) : getLine l s = .fault (.noSuchLine l) := by
  have hm : modeOf s l = none := Option.eq_none_iff_forall_ne_some.2 fun md e => h (hasLine_iff_mode.2 ⟨md, e⟩)
  simp [getLine, hm]

/-! ### The device shows the addressed cell -/

/-- R51, R64: a wired block whose Data Bus listens, and whose device drives it with the cell at address `a`. -/
structure Presents (s : State) (a : Nat) : Prop where
  wired   : Wired s
  inputs  : DataInputs s
  drives  : driving s = true
  address : latchValue s s.cfg.addrBus = a

/-- What the device shows depends on the configuration and the Line table only. -/
theorem Presents.congr (h : Presents s a) (hc : t.cfg = s.cfg) (hl : t.lines = s.lines) : Presents t a where
  wired   := h.wired.of_keys hc (by rw [hl])
  inputs  := h.inputs.of_modes hc fun l => modeOf_congr hl l
  drives  := (driving_congr hc hl).trans h.drives
  address := by rw [hc, latchValue_congr fun l _ => latchOf_congr hl l, h.address]

/-- The sample depends on the device's cells and the width of the Data Bus. -/
theorem cellSample_congr (hc : t.cfg = s.cfg) (hm : t.mem = s.mem) (a : Nat) : cellSample t a = cellSample s a := by
  rw [cellSample, hc, hm, cellSample]

/-- R64: a device stays selected while the modes and the latches off the Address Bus and output-enable stay. -/
theorem Selected.of_otherLatches (hs : Selected s) (hw : Wired s) (hc : t.cfg = s.cfg) (hm : SameModes s t)
    (ho : OtherLatches (s.cfg.oeLine :: s.cfg.addrBus) s t) : Selected t := by
  obtain ⟨hctrl, hce, hwe, haddr⟩ := hs
  obtain ⟨oe_ne_ce, oe_ne_we, _⟩ := hw.apart.ctrl_ne
  have untouched : ∀ l ∈ s.cfg.ctrlBus, l ≠ s.cfg.oeLine → latchOf t l = latchOf s l := fun l hl hne =>
    ho l (List.not_mem_cons_of_ne_of_not_mem hne fun hla => hw.apart.addr_ctrl l hla hl)
  rw [Selected, hc]
  refine ⟨fun l hl => (hm l).trans (hctrl l hl), ?_, ?_, fun l hl => (hm l).trans (haddr l hl)⟩
  · exact (untouched _ (ctrlLineOf_mem s.cfg .ce) oe_ne_ce.symm).trans hce
  · exact (untouched _ (ctrlLineOf_mem s.cfg .we) oe_ne_we.symm).trans hwe

/-- R102: phase 0 that finds the register free drives the address and enables the outputs, with or without the
separator. -/
theorem phase0_lines (nl : Bool) (a : Nat) (hr : s.hr = none) :
    (phase0 nl a s).lines = (driveCtrl .oeRead (writeBus s.cfg.addrBus a s)).lines := by
  cases nl
  · rw [phase0_silent]
  · rw [phase0_accepted a hr]

/-- R51: after phase 0 of an address a selected device shows that cell. -/
theorem phase0_presents (nl : Bool) (hw : Wired s) (hd : DataInputs s) (hs : Selected s) (hr : s.hr = none)
    (ha : a < 2 ^ s.cfg.aw) : Presents (phase0 nl a s) a := by
  obtain ⟨hkeys, hmodes, hcfg, _⟩ := phase0_frame nl a s
  obtain ⟨haddr, hoe, hother, _⟩ := drivenEnabled_spec hw a _ (phase0_lines nl a hr)
  refine ⟨hw.of_keys hcfg hkeys, hd.of_modes hcfg hmodes, ?_, ?_⟩
  · exact driving_of_selected (hs.of_otherLatches hw hcfg hmodes hother) (by rw [hcfg, hoe])
  · rw [hcfg, haddr, Nat.mod_eq_of_lt ha]

/-! ### The sample -/

/-- R103: the sample of phase 1 is the cell the device shows; the operand is not used. -/
theorem Presents.phase1 (h : Presents s a) (b : Nat) :
    execSeqP1 b s = .next (phase1Emit { s with sb := cellSample s a }) := by
  have hread := readBus_driving h.wired.apart.data h.inputs h.drives
  rw [h.address, configLegal_dataLength h.wired.1] at hread
  exact execSeqP1_of_read (k := 0) b hread

/-- R51, R103: phase 1 that finds the register free takes the sample, switches output-enable off and sends the high
digit. -/
theorem Presents.phase1_accepted (h : Presents s a) (hr : s.hr = none) (b : Nat) :
    execSeqP1 b s = .next { s with
      lines := (driveCtrl .oeOff s).lines, sb := cellSample s a, tc := (s.tc + 1) % 2 ^ s.cfg.cw,
      hr := some (hexChar (highNibble (cellSample s a))),
      txlog := s.txlog ++ [hexChar (highNibble (cellSample s a))] } :=
  (h.phase1 b).trans (congrArg _ (phase1Emit_accepted (s := { s with sb := cellSample s a }) hr))

/-- R103: switching output-enable off leaves the address on the Address Bus. -/
theorem Presents.wires_oeOff (h : Presents s a) (ht : t.lines = (driveCtrl .oeOff s).lines) :
    latchValue t s.cfg.addrBus = a ∧ latchOf t s.cfg.oeLine = some (levelBit s.cfg .oeOff) := by
  obtain ⟨hoe, hother, _⟩ := oeOff_spec h.wired t ht
  have off_bus : ∀ l ∈ s.cfg.addrBus, l ∉ [s.cfg.oeLine] := fun l hl e =>
    h.wired.oe_not_addr (List.mem_singleton.1 e ▸ hl)
  exact ⟨(latchValue_congr fun l hl => hother l (off_bus l hl)).trans h.address, hoe⟩

end Sys2Proof.Machine

/-! ### The statements -/

namespace Sys2Proof.Proofs

open Sys2Proof.Machine

/-- Settles O37: phase 0 makes the device show the cell, the drain leaves the wires alone, and phase 1 samples. -/
theorem readTransactionSamplesTheCell : Obligations.ReadTransactionSamplesTheCell := by
  intro s a hw hd hs hr ha
  have kept : SameShape s (phase0 (blockFirst a) a s) := phase0_sameShape _ _ s
  have shown : Presents { phase0 (blockFirst a) a s with hr := none } a :=
    (phase0_presents (blockFirst a) hw hd hs hr ha).congr rfl rfl
  have run : runOps [.seqP0 a, .txdDrain, .seqP1 a] s =
      andThen (execSeqP1 a { phase0 (blockFirst a) a s with hr := none }) (runOps []) := rfl
  rw [run, shown.phase1_accepted rfl]
  refine ⟨_, rfl, cellSample_congr kept.cfg kept.mem a, ?_⟩
  rw [← kept.cfg]
  exact shown.wires_oeOff rfl

/-- Settles O59: the cells and the configuration are part of the shape that every operation keeps. -/
theorem noOperationWritesTheDevice : Obligations.NoOperationWritesTheDevice := by
  intro i s t h
  have kept := exec_sameShape h
  exact ⟨kept.cfg, fun a => by rw [kept.mem]⟩

/-- Settles O13: the block holds no such Line, so each of the three finds none. -/
theorem linesOutsideTheBusesFault : Obligations.LinesOutsideTheBusesFault := by
  intro s l m e b hw hl
  have missing : ¬ hasLine s l = true := mt hw.hasLine_iff.1 hl
  have get : execLineGet l s = .fault (.noSuchLine l) := by simp [execLineGet, getLine_of_missing missing]
  exact ⟨onLine_of_missing missing _, onLine_of_missing missing _, get⟩

end Sys2Proof.Proofs

/-! SUPPORT. The decoder row by row (R70, R72, R73), the encoder against it (R74, R76, R82, R135), and what the byte
codes and a counter beyond the terminal value do when they are executed (R74, R76, R80). -/

namespace Sys2Proof.Machine

variable {s : State} {cfg : Config} {a w : Nat} {i : Instr}

/-! ### The rows of the counter format -/

/-- R70, R20: a counter value of `CW` bits is decoded by the rows of `TC-FULL`. -/
theorem decode_tcFull_of_lt (h : w < 2 ^ cfg.cw) : decode cfg .tcFull w = .ok (decodeTcFull cfg w) := by
  simp [decode, h]

theorem decodeTcFull_terminal (h : w / 4 = 2 ^ cfg.aw) : decodeTcFull cfg w = .seqTerm := by
  simp [decodeTcFull, h]

/-- R72, R73: phase 0, the block-first sub-row taken before its parent. -/
theorem decodeTcFull_phase0 (ha : a ≠ 2 ^ cfg.aw) :
    decodeTcFull cfg (4 * a) = if a % 16 = 0 then .seqP0NL a else .seqP0 a := by
  have hd : 4 * a / 4 = a := by omega
  have hp : 4 * a % 4 = 0 := by omega
  simp [decodeTcFull, hd, hp, ha]

theorem decodeTcFull_phase1 (ha : a ≠ 2 ^ cfg.aw) : decodeTcFull cfg (4 * a + 1) = .seqP1 a := by
  have hd : (4 * a + 1) / 4 = a := by omega
  have hp : (4 * a + 1) % 4 = 1 := by omega
  simp [decodeTcFull, hd, hp, ha]

theorem decodeTcFull_phase2 (ha : a ≠ 2 ^ cfg.aw) : decodeTcFull cfg (4 * a + 2) = .seqP2 a := by
  have hd : (4 * a + 2) / 4 = a := by omega
  have hp : (4 * a + 2) % 4 = 2 := by omega
  simp [decodeTcFull, hd, hp, ha]

/-- R72, R73: phase 3, the block-last sub-row taken before its parent. -/
theorem decodeTcFull_phase3 (ha : a ≠ 2 ^ cfg.aw) :
    decodeTcFull cfg (4 * a + 3) = if a % 16 = 15 then .seqP3CR a else .seqP3 a := by
  have hd : (4 * a + 3) / 4 = a := by omega
  have hp : (4 * a + 3) % 4 = 3 := by omega
  simp [decodeTcFull, hd, hp, ha]

/-- R21: a counter value is one of the four phases of its address. -/
theorem eq_address_phase (w : Nat) :
    ∃ a, a = w / 4 ∧ (w = 4 * a ∨ w = 4 * a + 1 ∨ w = 4 * a + 2 ∨ w = 4 * a + 3) :=
  ⟨w / 4, rfl, by omega⟩

/-! ### Decoding what was encoded -/

/-- R74: every row of the transmitted codes is found under its code. -/
theorem decode_txByte_of_mem (h : (w, i) ∈ txTable) : decode cfg .txByte w = .ok i := by
  have found : ∀ r ∈ txTable, decodeTx r.1 = some r.2 := by decide
  simp [decode, found (w, i) h]

/-- R70 to R76, R135: in a legal FULL configuration the number of a well-formed operation decodes to it. -/
theorem decode_encode {f : Format} (hl : configLegal cfg = true) (hv : cfg.variant = .full)
    (hw : wellFormed cfg i = true) (he : encode cfg i = some (f, w)) : decode cfg f w = .ok i := by
  cases i with
  | seqTerm =>
    have hfit := Laws.EncodingFits.seqTerm cfg f w hl hv hw he
    cases he
    rw [decode_tcFull_of_lt hfit, decodeTcFull_terminal (by omega)]
  | seqP0NL a =>
    have hfit := Laws.EncodingFits.seqP0NL a cfg f w hl hv hw he
    cases he
    simp only [wellFormed, Bool.and_eq_true, decide_eq_true_eq] at hw
    rw [decode_tcFull_of_lt hfit, decodeTcFull_phase0 hw.1.ne, if_pos hw.2]
  | seqP0 a =>
    have hfit := Laws.EncodingFits.seqP0 a cfg f w hl hv hw he
    cases he
    simp only [wellFormed, Bool.and_eq_true, Bool.not_eq_true', decide_eq_true_eq, decide_eq_false_iff_not] at hw
    rw [decode_tcFull_of_lt hfit, decodeTcFull_phase0 hw.1.ne, if_neg hw.2]
  | seqP1 a =>
    have hfit := Laws.EncodingFits.seqP1 a cfg f w hl hv hw he
    cases he
    rw [decode_tcFull_of_lt hfit, decodeTcFull_phase1 (of_decide_eq_true hw).ne]
  | seqP2 a =>
    have hfit := Laws.EncodingFits.seqP2 a cfg f w hl hv hw he
    cases he
    rw [decode_tcFull_of_lt hfit, decodeTcFull_phase2 (of_decide_eq_true hw).ne]
  | seqP3CR a =>
    have hfit := Laws.EncodingFits.seqP3CR a cfg f w hl hv hw he
    cases he
    simp only [wellFormed, Bool.and_eq_true, decide_eq_true_eq] at hw
    rw [decode_tcFull_of_lt hfit, decodeTcFull_phase3 hw.1.ne, if_pos hw.2]
  | seqP3 a =>
    have hfit := Laws.EncodingFits.seqP3 a cfg f w hl hv hw he
    cases he
    simp only [wellFormed, Bool.and_eq_true, Bool.not_eq_true', decide_eq_true_eq, decide_eq_false_iff_not] at hw
    rw [decode_tcFull_of_lt hfit, decodeTcFull_phase3 hw.1.ne, if_neg hw.2]
  | rseqP0 => cases he; simp [decode]
  | txHex0 | txHex1 | txHex2 | txHex3 | txHex4 | txHex5 | txHex6 | txHex7 | txHex8 | txHex9
  | txHexa | txHexb | txHexc | txHexd | txHexe | txHexf | txNl | txSp | txCr =>
    cases he; exact decode_txByte_of_mem (by decide)
  | rxStart => cases he; rfl
  | buClocks | buCfgAddr | buCfgData | buCtrlLevels | buCfgCtrl | buCeAssert | buTcInit | buSerialCfg
  | buWaitStart | buArm | buHalt => cases he; rfl
  | lineConfigure | lineSet | lineGet | busConfigure | busWrite | busRead | ctrlSet | seqTick | relayTrySend
  | relayRecv | timerTick | txdDrain | rxsSend | rst => cases he

/-- R82: the operations without an encoding, each under the form it is invoked in. -/
theorem invokedByName_of_encode_none (he : encode cfg i = none) :
    i ∈ [Instr.seqTick, .relayRecv, .timerTick, .txdDrain, .rst] ∨ (∃ l m e, i = .lineConfigure l m e) ∨
      (∃ l b, i = .lineSet l b) ∨ (∃ l, i = .lineGet l) ∨ (∃ B m e, i = .busConfigure B m e) ∨
      (∃ B v, i = .busWrite B v) ∨ (∃ B, i = .busRead B) ∨ (∃ c x, i = .ctrlSet c x) ∨
      (∃ b, i = .relayTrySend b) ∨ (∃ b, i = .rxsSend b) := by
  cases i with
  | seqTick | relayRecv | timerTick | txdDrain | rst => exact .inl (by decide)
  | lineConfigure | lineSet | lineGet | busConfigure | busWrite | busRead | ctrlSet | relayTrySend | rxsSend => simp
  | _ => cases he

/-! ### Encoding what was decoded -/

/-- R70, R72, R107: up to the terminal value the counter decodes to a well-formed operation of that number. -/
theorem encode_decodeTcFull (h : w ≤ 4 * 2 ^ cfg.aw) :
    wellFormed cfg (decodeTcFull cfg w) = true ∧ encode cfg (decodeTcFull cfg w) = some (.tcFull, w) := by
  by_cases ht : w = 4 * 2 ^ cfg.aw
  · rw [decodeTcFull_terminal (by omega), ht]
    exact ⟨rfl, rfl⟩
  · obtain ⟨a, -, rfl | rfl | rfl | rfl⟩ := eq_address_phase w
    all_goals have ha : a < 2 ^ cfg.aw := by omega
    · rw [decodeTcFull_phase0 ha.ne]
      split <;> simp [wellFormed, encode, *]
    · rw [decodeTcFull_phase1 ha.ne]
      simp [wellFormed, encode, ha]
    · rw [decodeTcFull_phase2 ha.ne]
      simp [wellFormed, encode, ha]
    · rw [decodeTcFull_phase3 ha.ne]
      split <;> simp [wellFormed, encode, *]

/-! ### The masks of the opcode table -/

/-- R73: the mask of the phase rows. -/
theorem and_phaseMask (w : Nat) : w &&& 3 = w % 4 := Nat.and_two_pow_sub_one_eq_mod w 2

/-- R73: the mask of the two sub-rows, the phase and the low 4 bits of the address. -/
theorem and_cadenceMask (w : Nat) : w &&& 0x3F = 4 * (w / 4 % 16) + w % 4 := by
  have h : w &&& 0x3F = w % 64 := Nat.and_two_pow_sub_one_eq_mod w 6
  omega

/-- R73: the mask of the terminal row, every bit of the counter but the phase. -/
theorem and_terminalMask {n : Nat} (hn : 2 ≤ n) (h : w < 2 ^ n) : w &&& (2 ^ n - 4) = 4 * (w / 4) := by
  obtain ⟨k, rfl⟩ := Nat.exists_eq_add_of_le' hn
  have hpow : 2 ^ (k + 2) = 4 * 2 ^ k := by rw [Nat.pow_add]; omega
  have hmask : (2 ^ (k + 2) - 4) / 2 ^ 2 = 2 ^ k - 1 := by omega
  have address : (w &&& (2 ^ (k + 2) - 4)) / 2 ^ 2 = w / 4 := by
    rw [Nat.and_div_two_pow, hmask, Nat.and_two_pow_sub_one_eq_mod]
    exact Nat.mod_eq_of_lt (by omega)
  have phase : (w &&& (2 ^ (k + 2) - 4)) % 2 ^ 2 = 0 := by
    rw [Nat.and_mod_two_pow, show (2 ^ (k + 2) - 4) % 2 ^ 2 = 0 by omega, Nat.and_zero]
  omega

/-! ### Executing the byte codes -/

/-- R74, log 9: the 19 rows of the transmitted codes, each with its code. -/
theorem exec_txRow {b : Byte}
    (h : (i, b) ∈ [(Instr.txHex0, (0x30 : Byte)), (.txHex1, 0x31), (.txHex2, 0x32), (.txHex3, 0x33), (.txHex4, 0x34),
      (.txHex5, 0x35), (.txHex6, 0x36), (.txHex7, 0x37), (.txHex8, 0x38), (.txHex9, 0x39), (.txHexa, 0x61),
      (.txHexb, 0x62), (.txHexc, 0x63), (.txHexd, 0x64), (.txHexe, 0x65), (.txHexf, 0x66), (.txNl, 0x0A),
      (.txSp, 0x20), (.txCr, 0x0D)]) (s : State) :
    exec i s = .next (sendByName b s) := by
  simp only [List.mem_cons, Prod.mk.injEq, List.not_mem_nil, or_false] at h
  rcases h with ⟨rfl, rfl⟩ | ⟨rfl, rfl⟩ | ⟨rfl, rfl⟩ | ⟨rfl, rfl⟩ | ⟨rfl, rfl⟩ | ⟨rfl, rfl⟩ | ⟨rfl, rfl⟩ | ⟨rfl, rfl⟩ |
    ⟨rfl, rfl⟩ | ⟨rfl, rfl⟩ | ⟨rfl, rfl⟩ | ⟨rfl, rfl⟩ | ⟨rfl, rfl⟩ | ⟨rfl, rfl⟩ | ⟨rfl, rfl⟩ | ⟨rfl, rfl⟩ | ⟨rfl, rfl⟩ |
    ⟨rfl, rfl⟩ | ⟨rfl, rfl⟩ <;> rfl

/-- R76, R144: the start byte at the head of the queue ends the wait. -/
theorem execRxStart_waiting {q : List Byte} (hm : s.ms = 8) (hq : s.rxq = codeCr :: q) :
    execRxStart s = .next { s with ms := 9, rxq := q } := by
  simp [execRxStart, recv_cons hq, hm, goTo]

/-- R129, log 9: nowhere else, and for no other byte, does the row have an effect. -/
theorem execRxStart_elsewhere (h : s.ms ≠ 8 ∨ s.rxq.head? ≠ some codeCr) : execRxStart s = .next s := by
  cases hq : s.rxq with
  | nil => simp [execRxStart, recv_nil hq]
  | cons b q =>
    have other : ¬ (s.ms = 8 ∧ b = codeCr) := by
      rintro ⟨hm, rfl⟩
      simp [hm, hq] at h
    simp [execRxStart, recv_cons hq, other]

/-! ### A counter beyond the terminal value -/

/-- R80 (a), D20. -/
theorem dispatchTick_beyond (h : 2 ^ s.cfg.aw < s.tc / 4) :
    dispatchTick s = .refused (.counterBeyondTerminal s.tc) := by
  simp [dispatchTick, h]

theorem execSeqTick_armed (ha : s.armed = true) : execSeqTick s = dispatchTick s := by
  simp [execSeqTick, ha]

/-- R156: a serviced tick of the FULL variant is the dispatch, whatever the counter holds. -/
theorem execTimerTick_armed (ha : s.armed = true) (hv : s.cfg.variant = .full) :
    execTimerTick s = dispatchTick s := by
  simp [execTimerTick, ha, hv, execSeqTick_armed]

end Sys2Proof.Machine

/-! ### The statements -/

namespace Sys2Proof.Proofs

open Sys2Proof.Machine

/-- Settles O2, by what `encode` answers: a number is decoded row by row (`decode_encode`), none leaves the operations
invoked by name. -/
theorem decodeOfEncodeIsIdentity : Obligations.DecodeOfEncodeIsIdentity := by
  intro cfg i hl hv hw
  split
  · next he => exact decode_encode hl hv hw he
  · next he => exact invokedByName_of_encode_none he

/-- Settles O3; neither the variant nor the other constraints on the configuration matter. -/
theorem counterValuesHaveOneMeaning : Obligations.CounterValuesHaveOneMeaning :=
  fun _ _ _ _ h => encode_decodeTcFull h

/-- Settles O4: each mask reads the address, its low 4 bits or the phase, so every row is a case of the decoder. -/
theorem counterDecodeFollowsTheMasks : Obligations.CounterDecodeFollowsTheMasks := by
  intro cfg w hl hv h
  have hcw := configLegal_full hl hv
  rw [and_terminalMask (by omega) h, and_cadenceMask, and_phaseMask, Nat.pow_add]
  by_cases ht : w / 4 = 2 ^ cfg.aw
  · rw [decodeTcFull_terminal ht, if_pos (by omega)]
  · rw [if_neg (by omega)]
    obtain ⟨a, ha, hw⟩ := eq_address_phase w
    rw [← ha] at ht ⊢
    rcases hw with rfl | rfl | rfl | rfl
    · rw [decodeTcFull_phase0 ht]
      split
      · rw [if_pos (by omega)]
      · rw [if_neg (by omega), if_neg (by omega), if_pos (by omega)]
    · rw [decodeTcFull_phase1 ht, if_neg (by omega), if_neg (by omega), if_neg (by omega), if_pos (by omega)]
    · rw [decodeTcFull_phase2 ht, if_neg (by omega), if_neg (by omega), if_neg (by omega), if_neg (by omega),
        if_pos (by omega)]
    · rw [decodeTcFull_phase3 ht]
      split
      · rw [if_neg (by omega), if_pos (by omega)]
      · rw [if_neg (by omega), if_neg (by omega), if_neg (by omega), if_neg (by omega), if_neg (by omega)]

/-- Settles O1: the tables evaluate on each of the words. -/
theorem specWordsDecode : Obligations.SpecWordsDecode :=
  ⟨rfl, rfl, rfl, rfl, rfl, rfl, rfl, rfl, rfl, rfl, rfl, rfl⟩

/-- Settles O5. -/
theorem onlyTheStartByteHasAMeaning : Obligations.OnlyTheStartByteHasAMeaning := by
  intro cfg w
  by_cases h : w = 0x0D <;> simp [decode, decodeRx, h]

/-- Settles O8: by name and by the timer the dispatch runs, which looks at the counter first. -/
theorem counterBeyondTerminalIsRefused : Obligations.CounterBeyondTerminalIsRefused := by
  intro s ha hb
  refine ⟨(execSeqTick_armed ha).trans (dispatchTick_beyond hb), fun hl hv ht => ?_⟩
  calc step s
      = execTimerTick (popStim s) := step_of_head hl ht
    _ = dispatchTick (popStim s) := execTimerTick_armed ha hv
    _ = .refused (.counterBeyondTerminal s.tc) := dispatchTick_beyond (s := popStim s) hb

/-- Settles O21: each row is `RELAY.TRY_SEND` of its code by name. -/
theorem eachByteCodeIsOffered : Obligations.EachByteCodeIsOffered := by
  intro s i b h
  rw [exec_txRow h]
  exact ⟨fun hr => by rw [sendByName_free b hr], fun c hr => by rw [sendByName_busy b c hr]⟩

/-- Settles O24. -/
theorem startByteEndsTheWait : Obligations.StartByteEndsTheWait :=
  fun _ => ⟨fun _ => execRxStart_waiting, execRxStart_elsewhere⟩

end Sys2Proof.Proofs

/-! SUPPORT. The free-running dump (R83, R110, R113): one serviced tick that finds the relay free, phase by phase, then
the text of one address, then the whole device by induction on the addresses. -/

namespace Sys2Proof.Machine

variable {s t u : State} {a n m : Nat} {out out' : List Byte}

/-! ### Operations in a row -/

theorem andThen_runOps_nil (o : Outcome State) : andThen o (runOps []) = o := by
  cases o <;> rfl

theorem runOps_append (is js : List Instr) (s : State) :
    runOps (is ++ js) s = andThen (runOps is s) (runOps js) := by
  induction is generalizing s with
  | nil => rfl
  | cons i is ih =>
    rw [List.cons_append, runOps, runOps]
    cases exec i s with
    | next t => exact ih t
    | fault r => rfl
    | refused r => rfl

/-! ### A block that runs the dump -/

/-- An armed FULL block with a selected device on its Lines. -/
structure Dumping (s : State) : Prop where
  wired    : Wired s
  inputs   : DataInputs s
  selected : Selected s
  full     : s.cfg.variant = .full
  armed    : s.armed = true

/-- The block goes on dumping while the modes and the latches off the Address Bus and output-enable stay. -/
theorem Dumping.of_frame (h : Dumping s) (hs : SameShape s t) (ha : t.armed = s.armed) (hm : SameModes s t)
    (ho : OtherLatches (s.cfg.oeLine :: s.cfg.addrBus) s t) : Dumping t where
  wired    := h.wired.of_keys hs.cfg hs.keys
  inputs   := h.inputs.of_modes hs.cfg hm
  selected := h.selected.of_otherLatches h.wired hs.cfg hm ho
  full     := hs.cfg ▸ h.full
  armed    := ha.trans h.armed

/-- R128: the drain touches the holding register only. -/
theorem drained_sameShape (s : State) : SameShape s { s with hr := none } := ⟨rfl, rfl, id, rfl⟩

theorem Dumping.drained (h : Dumping s) : Dumping { s with hr := none } :=
  h.of_frame (drained_sameShape s) rfl (fun _ => rfl) fun _ _ => rfl

/-- R9 (c), R107: below the terminal value the counter does not wrap. -/
theorem Dumping.counter_succ (h : Dumping s) (hl : s.tc / 4 < 2 ^ s.cfg.aw) :
    (s.tc + 1) % 2 ^ s.cfg.cw = s.tc + 1 :=
  Nat.mod_eq_of_lt (by have := terminal_lt h.wired.1 h.full; omega)

/-- `n` ticks, each after a drain, take a dumping block from `s` to `t`: the counter advances by `n`, and `out` is
sent. -/
structure Sends (n : Nat) (out : List Byte) (s t : State) : Prop where
  run     : runOps (List.replicate n [Instr.txdDrain, .timerTick]).flatten s = .next t
  dumping : Dumping t
  shape   : SameShape s t
  counter : t.tc = s.tc + n
  log     : t.txlog = s.txlog ++ out

theorem Sends.refl (h : Dumping s) : Sends 0 [] s s where
  run     := rfl
  dumping := h
  shape   := .refl s
  counter := rfl
  log     := (List.append_nil _).symm

theorem Sends.trans (h : Sends n out s t) (k : Sends m out' t u) : Sends (n + m) (out ++ out') s u where
  run     := by
    rw [List.replicate_add, List.flatten_append, runOps_append, h.run, andThen_next]
    exact k.run
  dumping := k.dumping
  shape   := h.shape.trans k.shape
  counter := by rw [k.counter, h.counter, Nat.add_assoc]
  log     := by rw [k.log, h.log, List.append_assoc]

/-- R100, R156: one tick after a drain runs the operation that the counter decodes to, on a free register. -/
theorem Dumping.sends_one (h : Dumping s) (hl : s.tc / 4 < 2 ^ s.cfg.aw)
    (he : exec (decodeTcFull s.cfg s.tc) { s with hr := none } = .next t) (ha : t.armed = s.armed)
    (hm : SameModes s t) (ho : OtherLatches (s.cfg.oeLine :: s.cfg.addrBus) s t)
    (htc : t.tc = (s.tc + 1) % 2 ^ s.cfg.cw) (hlog : t.txlog = s.txlog ++ out) : Sends 1 out s t where
  run     := by
    have ticks : runOps (List.replicate 1 [Instr.txdDrain, .timerTick]).flatten s =
        andThen (execTimerTick { s with hr := none }) (runOps []) := rfl
    rw [ticks, andThen_runOps_nil, timerTick_full (s := { s with hr := none }) h.armed h.full hl.le]
    exact he
  dumping := h.of_frame ((drained_sameShape s).trans (exec_sameShape he)) ha hm ho
  shape   := (drained_sameShape s).trans (exec_sameShape he)
  counter := htc.trans (h.counter_succ hl)
  log     := hlog

/-! ### The phases on a free register -/

/-- R102: phase 0 opens the address, with the line feed where a block begins, and makes the device show the cell. -/
theorem Dumping.sends_phase0 (h : Dumping s) (htc : s.tc = 4 * a) (ha : a < 2 ^ s.cfg.aw) :
    ∃ t, Sends 1 (if blockFirst a then [codeNl] else []) s t ∧ Presents t a := by
  have hl : s.tc / 4 < 2 ^ s.cfg.aw := by omega
  have runs : exec (decodeTcFull s.cfg s.tc) { s with hr := none } =
      .next (phase0 (blockFirst a) a { s with hr := none }) := by
    rw [htc, decodeTcFull_phase0 ha.ne]
    by_cases hb : a % 16 = 0 <;> simp [hb, exec, execSeqP0NL, execSeqP0, blockFirst]
  have hlines := phase0_lines (s := { s with hr := none }) (blockFirst a) a rfl
  obtain ⟨_, _, hother, hmodes⟩ := drivenEnabled_spec h.drained.wired a _ hlines
  obtain ⟨_, _, _, harmed⟩ := phase0_frame (blockFirst a) a { s with hr := none }
  refine ⟨_, h.sends_one hl runs harmed hmodes hother ?counter ?log,
    phase0_presents _ h.drained.wired h.drained.inputs h.drained.selected rfl ha⟩
  all_goals cases blockFirst a
  case counter.false => rw [phase0_silent]
  case counter.true => rw [phase0_accepted a rfl]
  case log.false => rw [phase0_silent]; simp
  case log.true => rw [phase0_accepted a rfl]; rfl

/-- R103: phase 1 of an address the device shows takes the sample and sends its high digit. -/
theorem Dumping.sends_phase1 (h : Dumping s) (hp : Presents s a) (htc : s.tc = 4 * a + 1) (ha : a < 2 ^ s.cfg.aw) :
    ∃ t, Sends 1 [hexChar (highNibble (cellSample s a))] s t ∧ t.sb = cellSample s a := by
  have shown : Presents { s with hr := none } a := hp.congr rfl rfl
  have runs : exec (decodeTcFull s.cfg s.tc) { s with hr := none } = execSeqP1 a { s with hr := none } := by
    rw [htc, decodeTcFull_phase1 ha.ne]
    rfl
  obtain ⟨_, hother, hmodes⟩ := oeOff_spec h.wired { s with lines := (driveCtrl .oeOff s).lines } rfl
  have off_oe : ∀ l, l ∉ s.cfg.oeLine :: s.cfg.addrBus → l ∉ [s.cfg.oeLine] := fun l hl hmem =>
    hl (List.mem_singleton.1 hmem ▸ List.mem_cons_self)
  exact ⟨_, h.sends_one (by omega) (runs.trans (shown.phase1_accepted rfl a)) rfl hmodes
    (fun l hl => hother l (off_oe l hl)) rfl rfl, rfl⟩

/-- R104, R105: a phase that only offers a byte sends it and advances. -/
theorem Dumping.sends_offer {b : Byte} (h : Dumping s) (hl : s.tc / 4 < 2 ^ s.cfg.aw)
    (he : exec (decodeTcFull s.cfg s.tc) { s with hr := none } = .next (offer b { s with hr := none } advance)) :
    ∃ t, Sends 1 [b] s t :=
  ⟨_, h.sends_one hl (he.trans (congrArg _ (offer_free b advance rfl))) rfl (fun _ => rfl) (fun _ _ => rfl) rfl rfl⟩

theorem Dumping.sends_phase2 (h : Dumping s) (htc : s.tc = 4 * a + 2) (ha : a < 2 ^ s.cfg.aw) :
    ∃ t, Sends 1 [hexChar (lowNibble s.sb)] s t := by
  refine h.sends_offer (by omega) ?_
  rw [htc, decodeTcFull_phase2 ha.ne]
  rfl

theorem Dumping.sends_phase3 (h : Dumping s) (htc : s.tc = 4 * a + 3) (ha : a < 2 ^ s.cfg.aw) :
    ∃ t, Sends 1 [separator a] s t := by
  refine h.sends_offer (by omega) ?_
  rw [htc, decodeTcFull_phase3 ha.ne]
  by_cases hb : a % 16 = 15 <;> simp [hb, exec, execSeqP3CR, execSeqP3, separator, blockLast]

/-! ### One address, and the device -/

/-- R110: the four phases of an address send its text. -/
theorem Dumping.sends_cellText (h : Dumping s) (htc : s.tc = 4 * a) (ha : a < 2 ^ s.cfg.aw) :
    ∃ t, Sends 4 (cellText a (cellSample s a)) s t := by
  obtain ⟨t0, h0, shown⟩ := h.sends_phase0 htc ha
  have sample : cellSample t0 a = cellSample s a := cellSample_congr h0.shape.cfg h0.shape.mem a
  obtain ⟨t1, h1, hsb⟩ := h0.dumping.sends_phase1 shown (by rw [h0.counter, htc]) (by rwa [h0.shape.cfg])
  have h01 := h0.trans h1
  obtain ⟨t2, h2⟩ := h1.dumping.sends_phase2 (by rw [h01.counter, htc]) (by rwa [h01.shape.cfg])
  have h02 := h01.trans h2
  obtain ⟨t3, h3⟩ := h2.dumping.sends_phase3 (by rw [h02.counter, htc]) (by rwa [h02.shape.cfg])
  refine ⟨t3, ?_⟩
  have h03 := h02.trans h3
  rw [hsb, sample] at h03
  simpa [cellText] using h03

/-- R83, R110: from counter 0 the ticks of the first `n` addresses send their texts in ascending order. -/
theorem Dumping.sends_dumpText (h : Dumping s) (htc : s.tc = 0) (hn : n ≤ 2 ^ s.cfg.aw) :
    ∃ t, Sends (4 * n) (dumpText (cellSample s) n) s t := by
  induction n with
  | zero => exact ⟨s, .refl h⟩
  | succ n ih =>
    obtain ⟨t, ht⟩ := ih (by omega)
    have sample : cellSample t n = cellSample s n := cellSample_congr ht.shape.cfg ht.shape.mem n
    obtain ⟨u, hu⟩ := ht.dumping.sends_cellText (a := n) (by rw [ht.counter, htc, Nat.zero_add])
      (by rw [ht.shape.cfg]; omega)
    rw [sample] at hu
    exact ⟨u, ht.trans hu⟩

end Sys2Proof.Machine

/-! ### The statement -/

namespace Sys2Proof.Proofs

open Sys2Proof.Machine

/-- Settles O39: the ticks of all `2^AW` addresses send the dump and leave the counter at the terminal value. -/
theorem freeRunningDumpIsTheDevice : Obligations.FreeRunningDumpIsTheDevice := by
  intro s hw hd hs hv ha htc hlog
  obtain ⟨t, ht⟩ := Dumping.sends_dumpText ⟨hw, hd, hs, hv, ha⟩ htc le_rfl
  have hend : t.tc = 4 * 2 ^ s.cfg.aw := by rw [ht.counter, htc, Nat.zero_add]
  refine ⟨t, ht.run, by rw [ht.log, hlog, List.nil_append], ?_⟩
  simp [terminal, addrOf, ppa, ht.shape.cfg, hv, hend]

end Sys2Proof.Proofs

/-! SUPPORT. The Bus Abstraction executed by name (R90 to R97): what each operation answers where it runs, that a
repeated write changes nothing, and that a bus with an output Line cannot be read. -/

namespace Sys2Proof.Machine

variable {s t : State} {l : Line} {ls : List Line} {B : BusId}

/-! ### What each operation answers -/

theorem exec_lineConfigure (h : hasLine s l = true) (m : Direction) (e : Econf) :
    exec (.lineConfigure l m e) s = .next (configureLine l ⟨m, e⟩ s) :=
  onLine_of_has h _

theorem exec_lineSet (h : hasLine s l = true) (b : Bool) : exec (.lineSet l b) s = .next (setLine l b s) :=
  onLine_of_has h _

/-- R92, log 8: the bit read becomes the result. -/
theorem exec_lineGet {b : Bool} (h : getLine l s = .next (b, t)) :
    exec (.lineGet l) s = .next { t with result := .bit b } := by
  simp [exec, execLineGet, h]

theorem exec_busConfigure (hw : Wired s) (B : BusId) (m : Direction) (e : Econf) :
    exec (.busConfigure B m e) s = .next (configureBus ⟨m, e⟩ (busLines s.cfg B) s) :=
  onBus_of_all (hw.hasBus B) _

theorem exec_busWrite (hw : Wired s) (B : BusId) (v : Nat) :
    exec (.busWrite B v) s = .next (writeBus (busLines s.cfg B) v s) :=
  onBus_of_all (hw.hasBus B) _

/-- R95, log 8: the value read becomes the result. -/
theorem exec_busRead {v : Nat} (h : readBus (busLines s.cfg B) s = .next (v, t)) :
    exec (.busRead B) s = .next { t with result := .value v } := by
  simp [exec, execBusRead, h]

/-- R96: a state of the line is driven on that line. -/
theorem exec_ctrlSet_owner (hw : Wired s) (x : CtrlState) : exec (.ctrlSet x.owner x) s = .next (driveCtrl x s) := by
  have runs := onLine_of_has (hw.hasCtrl x.owner) (.next (driveCtrl x s))
  simpa [exec, execCtrlSet] using runs

theorem exec_ctrlSet_foreign {c : CtrlLine} {x : CtrlState} (h : x.owner ≠ c) (s : State) :
    exec (.ctrlSet c x) s = .refused (.notAStateOf c x) := by
  simp [exec, execCtrlSet, h]

/-! ### Repeated writes -/

theorem configureLine_idem (l : Line) (md : Mode) (s : State) :
    configureLine l md (configureLine l md s) = configureLine l md s := by
  simp only [configureLine, List.map_map, State.mk.injEq, true_and, and_true]
  refine List.map_congr_left fun c _ => ?_
  by_cases hc : c.line = l <;> simp [hc]

theorem setLine_idem (l : Line) (b : Bool) (s : State) : setLine l b (setLine l b s) = setLine l b s := by
  simp only [setLine, List.map_map, State.mk.injEq, true_and, and_true]
  refine List.map_congr_left fun c _ => ?_
  by_cases hc : c.line = l <;> simp [hc]

/-- R25: in a wired state the table is known by its modes and latches, so a change of the table that shows in neither
is none. -/
theorem Wired.eq_of_sameWires (hw : Wired s) (hk : t.lines.map LineCell.line = s.lines.map LineCell.line)
    (ht : t = { s with lines := t.lines }) (hm : SameModes s t) (hl : OtherLatches [] s t) : t = s := by
  have lines_nodup : (s.lines.map LineCell.line).Nodup := hw.2 ▸ configLegal_nodup hw.1
  rw [ht, lines_ext hk lines_nodup hm fun l => hl l List.not_mem_nil]

theorem modeOf_configureBus_of_wired (hw : Wired s) (B : BusId) (md : Mode) (l : Line) :
    modeOf (configureBus md (busLines s.cfg B) s) l = if l ∈ busLines s.cfg B then some md else modeOf s l := by
  rw [modeOf_configureBus]
  split
  · obtain ⟨_, hmode⟩ := hasLine_iff_mode.1 (hw.hasBus B l ‹_›)
    rw [hmode, Option.map_some]
  · rfl

theorem configureBus_wired (hw : Wired s) (md : Mode) (ls : List Line) : Wired (configureBus md ls s) :=
  hw.of_keys (configureBus_cfg md ls s) (keys_configureBus md ls s)

theorem writeBus_wired (hw : Wired s) (ls : List Line) (v : Nat) : Wired (writeBus ls v s) :=
  hw.of_keys (writeBus_cfg ls v s) (keys_writeBus v ls s)

/-- R93: a second identical call changes nothing. -/
theorem configureBus_idem (hw : Wired s) (md : Mode) (ls : List Line) :
    configureBus md ls (configureBus md ls s) = configureBus md ls s := by
  refine (configureBus_wired hw md ls).eq_of_sameWires (keys_configureBus md ls _) (configureBus_eq md ls _)
    (fun l => ?_) fun l _ => latchOf_configureBus md ls _ l
  rw [modeOf_configureBus, modeOf_configureBus]
  split
  · exact Option.map_map ..
  · rfl

/-- R94: a second identical call changes nothing. -/
theorem writeBus_idem (hw : Wired s) (B : BusId) (v : Nat) :
    writeBus (busLines s.cfg B) v (writeBus (busLines s.cfg B) v s) =
      writeBus (busLines s.cfg B) v s := by
  have hw' := writeBus_wired hw (busLines s.cfg B) v
  have bus_nodup := busLines_nodup hw.1 B
  refine hw'.eq_of_sameWires (keys_writeBus _ _ _) (writeBus_eq _ _ _) (fun l => modeOf_writeBus _ _ _ l) fun l _ => ?_
  by_cases hl : l ∈ busLines s.cfg B
  · obtain ⟨i, hi, rfl⟩ := List.getElem_of_mem hl
    have present := hw'.hasBus B
    rw [writeBus_cfg] at present
    rw [latchOf_writeBus_get v bus_nodup present i hi, latchOf_writeBus_get v bus_nodup (hw.hasBus B) i hi]
  · exact latchOf_writeBus_ne v _ hl

/-! ### Reading a bus that has an output Line -/

/-- R92, R95, D24: a read of present Lines, one of them an output, is refused at one of them. The input
Lines before it are read, which only draws, so the modes still to be met stay. -/
theorem readBusFrom_output (i v : Nat) (hp : ∀ l ∈ ls, hasLine s l = true)
    (ho : ∃ l ∈ ls, ∃ md, modeOf s l = some md ∧ md.dir = .output) :
    ∃ k ∈ ls, readBusFrom i ls v s = .refused (.getOnOutput k) := by
  induction ls generalizing i v s with
  | nil =>
    obtain ⟨_, hl, _⟩ := ho
    cases hl
  | cons x ls ih =>
    obtain ⟨md, hm⟩ := hasLine_iff_mode.1 (hp x List.mem_cons_self)
    cases hd : md.dir with
    | output => exact ⟨x, List.mem_cons_self, by rw [readBusFrom, getLine_output hm hd, andThen_refused]⟩
    | input =>
      obtain ⟨b, n, hget⟩ := getLine_input hm hd
      obtain ⟨l, hl, md', hm', hd'⟩ := ho
      have l_ne_x : l ≠ x := by
        rintro rfl
        obtain rfl := Option.some.inj (hm.symm.trans hm')
        exact absurd (hd.symm.trans hd') (by decide)
      obtain ⟨k, hk, hread⟩ := ih (s := { s with draws := s.draws + n }) (i + 1) (if b then v + 2 ^ i else v)
        (fun l' h' => hp l' (List.mem_cons_of_mem x h')) ⟨l, List.mem_of_ne_of_mem l_ne_x hl, md', hm', hd'⟩
      exact ⟨k, List.mem_cons_of_mem x hk, by rw [readBusFrom, hget, andThen_next, hread]⟩

/-! ### What the family writes -/

/-- R97: nothing changed but the Line table and the model's own result and draws. -/
def WritesWiresOnly (s t : State) : Prop := t = { s with lines := t.lines, draws := t.draws, result := t.result }

theorem writesWiresOnly_of_table (h : t = { s with lines := t.lines }) : WritesWiresOnly s t := by
  obtain ⟨table, rfl⟩ : ∃ table, t = { s with lines := table } := ⟨_, h⟩
  rfl

/-- A read, which draws, and whose value becomes the result. -/
theorem writesWiresOnly_of_read {u : State} (hu : ∃ k, u = { s with draws := s.draws + k }) (x : OpResult) :
    WritesWiresOnly s { u with result := x } := by
  obtain ⟨k, rfl⟩ := hu
  rfl

theorem WritesWiresOnly.of_next {u : State} (hu : WritesWiresOnly s u) (h : (.next u : Outcome State) = .next t) :
    WritesWiresOnly s t :=
  Host.Outcome.next.inj h ▸ hu

theorem execLineGet_writesWiresOnly (h : execLineGet l s = .next t) : WritesWiresOnly s t := by
  obtain ⟨r, hr, h⟩ := andThen_eq_next h
  exact (writesWiresOnly_of_read (getLine_eq_next hr) (.bit r.1)).of_next h

theorem execBusRead_writesWiresOnly (h : execBusRead B s = .next t) : WritesWiresOnly s t := by
  obtain ⟨r, hr, h⟩ := andThen_eq_next h
  exact (writesWiresOnly_of_read (readBus_eq_next hr) (.value r.1)).of_next h

theorem execCtrlSet_writesWiresOnly {c : CtrlLine} {x : CtrlState} (h : execCtrlSet c x s = .next t) :
    WritesWiresOnly s t := by
  unfold execCtrlSet at h
  split at h
  · exact (writesWiresOnly_of_table (driveCtrl_eq x s)).of_next (onLine_eq_next h)
  · cases h

end Sys2Proof.Machine

/-! ### The statements -/

namespace Sys2Proof.Proofs

open Sys2Proof.Machine

/-- Settles O9: the call is `configureLine`, read off its rules; the Line is still held for the second call. -/
theorem lineConfigureWritesOneMode : Obligations.LineConfigureWritesOneMode := by
  intro s l m e hl
  obtain ⟨md, hmode⟩ := hasLine_iff_mode.1 hl
  refine ⟨_, exec_lineConfigure hl m e, ?mode, fun k hk => ?other, fun k _ => latchOf_configureLine l _ s k, rfl,
    ?again⟩
  case mode => simp [modeOf_configureLine, hmode]
  case other => simp [modeOf_configureLine, hk]
  case again => rw [exec_lineConfigure (by simpa using hl), configureLine_idem]

/-- Settles O10: the call is `setLine`, read off its rules; the Line is still held for the second call. -/
theorem lineSetWritesOneLatch : Obligations.LineSetWritesOneLatch := by
  intro s l b hl
  refine ⟨_, exec_lineSet hl b, latchOf_setLine_self b hl, fun k hk => ?other, fun k => modeOf_setLine l b s k, rfl,
    ?again⟩
  case other => exact latchOf_setLine_ne b s (List.ne_of_not_mem_cons hk)
  case again => rw [exec_lineSet (by simpa using hl), setLine_idem]

/-- Settles O11: the pin gives a bit on any input Line, and the cell's bit where the device drives the Line. -/
theorem lineGetReturnsThePin : Obligations.LineGetReturnsThePin := by
  intro s l md hm hd
  refine ⟨?bit, fun i hi hn hl hdrv => ?cell⟩
  case bit =>
    obtain ⟨b, k, hget⟩ := getLine_input hm hd
    exact ⟨b, k, exec_lineGet hget⟩
  case cell =>
    have index : lineIndexFrom l 0 s.cfg.dataBus = some i := by
      rw [hl, lineIndexFrom_get 0 hn i hi, Nat.zero_add]
    exact exec_lineGet (getLine_driving hm hd index hdrv)

/-- Settles O12: a bus read, and the sample of phase 1 with it, stops at the first output Line. -/
theorem readingAnOutputIsRefused : Obligations.ReadingAnOutputIsRefused := by
  intro s
  refine ⟨fun l md hm hd => ?line, fun B l md hw hl hm hd => ?bus⟩
  case line => simp [exec, execLineGet, getLine_output hm hd]
  case bus =>
    obtain ⟨k, hk, hread⟩ := readBusFrom_output 0 0 (hw.hasBus B) ⟨l, hl, md, hm, hd⟩
    have refused : readBus (busLines s.cfg B) s = .refused (.getOnOutput k) := hread
    refine ⟨k, hk, by simp [exec, execBusRead, refused], ?phase1⟩
    rintro rfl a
    have sample : readBus s.cfg.dataBus s = .refused (.getOnOutput k) := refused
    simp [exec, execSeqP1, sample]

/-- Settles O14: the call is `configureBus`, whose second run is the identity on a wired table. -/
theorem busConfigureSetsEveryLine : Obligations.BusConfigureSetsEveryLine := by
  intro s B m e hw
  refine ⟨_, exec_busConfigure hw B m e, modeOf_configureBus_of_wired hw B ⟨m, e⟩,
    fun k _ => latchOf_configureBus _ _ s k, configureBus_eq _ _ s, ?again⟩
  rw [exec_busConfigure (configureBus_wired hw _ _), configureBus_cfg, configureBus_idem hw]

/-- Settles O15: the call is `writeBus` on the distinct, present Lines of a bus. -/
theorem busWriteHoldsTheLowBits : Obligations.BusWriteHoldsTheLowBits := by
  intro s B v hw
  have bus_nodup := busLines_nodup hw.1 B
  refine ⟨_, exec_busWrite hw B v, latchValue_writeBus v bus_nodup (hw.hasBus B),
    latchOf_writeBus_get v bus_nodup (hw.hasBus B), fun k hk => latchOf_writeBus_ne v s hk,
    fun k => modeOf_writeBus v _ s k, writeBus_eq _ v s, ?again⟩
  rw [exec_busWrite (writeBus_wired hw _ v), writeBus_cfg, writeBus_idem hw]

/-- Settles O16: what `readBus` answers, recorded as the result. -/
theorem busReadStaysBelowTheWidth : Obligations.BusReadStaysBelowTheWidth := by
  intro s B hinputs
  obtain ⟨v, k, hv, hread⟩ := readBus_inputs hinputs
  exact ⟨v, k, hv, exec_busRead hread⟩

/-- Settles O17: the bits a driving device shows make up the cell, and the Data Bus has `DW` Lines. -/
theorem busReadReturnsTheCell : Obligations.BusReadReturnsTheCell := by
  intro s hw hinputs hdrv
  have hread := readBus_driving hw.apart.data hinputs hdrv
  rw [configLegal_dataLength hw.1] at hread
  exact exec_busRead (B := .data) hread

/-- Settles O18: the line of the state's owner is present, so its latch takes the level. -/
theorem ctrlSetDrivesTheNamedLevel : Obligations.CtrlSetDrivesTheNamedLevel := by
  rintro s _ x hw rfl
  exact ⟨_, exec_ctrlSet_owner hw x, latchOf_driveCtrl_self x (hw.hasCtrl x.owner),
    fun k hk => latchOf_driveCtrl_ne x s (List.ne_of_not_mem_cons hk), fun k => modeOf_driveCtrl x s k,
    driveCtrl_eq x s⟩

/-- Settles O60: the writes touch the Line table only, and the reads the result and the draws only. -/
theorem busFamilyLeavesTheSequencerAlone : Obligations.BusFamilyLeavesTheSequencerAlone := by
  rintro _ s t (⟨l, m, e, rfl⟩ | ⟨l, b, rfl⟩ | ⟨l, rfl⟩ | ⟨B, m, e, rfl⟩ | ⟨B, v, rfl⟩ | ⟨B, rfl⟩ | ⟨c, x, rfl⟩) h
  · exact (writesWiresOnly_of_table (configureLine_eq l ⟨m, e⟩ s)).of_next (onLine_eq_next h)
  · exact (writesWiresOnly_of_table (setLine_eq l b s)).of_next (onLine_eq_next h)
  · exact execLineGet_writesWiresOnly h
  · exact (writesWiresOnly_of_table (configureBus_eq ⟨m, e⟩ _ s)).of_next (onBus_eq_next h)
  · exact (writesWiresOnly_of_table (writeBus_eq _ v s)).of_next (onBus_eq_next h)
  · exact execBusRead_writesWiresOnly h
  · exact execCtrlSet_writesWiresOnly h

/-- Settles O19: the owner of the state is checked before the Line is looked at. -/
theorem ctrlSetRefusesForeignStates : Obligations.CtrlSetRefusesForeignStates :=
  fun s _ _ h => exec_ctrlSet_foreign h s

end Sys2Proof.Proofs

/-! SUPPORT. What every step keeps of the wires (R112, R137 to R141, R147, R148, R185): the wires each step of bring-up
leaves, and what a serviced tick does to them. -/

namespace Sys2Proof.Machine

variable {s t u : State} {m n : Nat}

/-! ### The buses and the control lines apart -/

/-- R9 (e): no Line is on two buses. -/
theorem Apart.not_mem_of_ne {cfg : Config} (h : Apart cfg) {B C : BusId} (hne : B ≠ C) {l : Line}
    (hl : l ∈ busLines cfg B) : l ∉ busLines cfg C := by
  intro hl'
  cases B <;> cases C
  case addr.addr | data.data | ctrl.ctrl => exact hne rfl
  case addr.data => exact h.addr_data l hl hl'
  case data.addr => exact h.addr_data l hl' hl
  case addr.ctrl => exact h.addr_ctrl l hl hl'
  case ctrl.addr => exact h.addr_ctrl l hl' hl
  case data.ctrl => exact h.data_ctrl l hl hl'
  case ctrl.data => exact h.data_ctrl l hl' hl

/-- R9 (e): the three control lines are three Lines. -/
theorem Apart.ctrlLineOf_injective {cfg : Config} (h : Apart cfg) : Function.Injective (ctrlLineOf cfg) := by
  have distinct : ([CtrlLine.oe, .ce, .we].map (ctrlLineOf cfg)).Nodup := h.ctrl
  exact fun c d => List.inj_on_of_nodup_map distinct (by cases c <;> simp) (by cases d <;> simp)

/-- R96: driving a state of one control line sets that line's latch and leaves the other two. -/
theorem Wired.latchOf_driveCtrl (hw : Wired s) (x : CtrlState) (c : CtrlLine) :
    latchOf (driveCtrl x s) (ctrlLineOf s.cfg c) =
      if x.owner = c then some (levelBit s.cfg x) else latchOf s (ctrlLineOf s.cfg c) := by
  split
  · next h => subst h; exact latchOf_driveCtrl_self x (hw.hasCtrl x.owner)
  · next h => exact latchOf_driveCtrl_ne x s (hw.apart.ctrlLineOf_injective.ne (Ne.symm h))

theorem driveCtrl_wired (hw : Wired s) (x : CtrlState) : Wired (driveCtrl x s) :=
  hw.of_keys rfl (keys_driveCtrl x s)

/-! ### The wires while output-enable is off -/

/-- R112, R137, R138, R140: the mode of each bus's Lines at main-flow step `m`. -/
def stepMode (cfg : Config) (m : Nat) : BusId → Mode
  | .addr => if 2 ≤ m then ⟨.output, cfg.addrEconf⟩ else ⟨.input, .floating⟩
  | .data => ⟨.input, .floating⟩
  | .ctrl => if 5 ≤ m then ⟨.output, .openDrain⟩ else ⟨.input, .floating⟩

/-- R112, R139, R141: the state each control line shows at main-flow step `m` while output-enable is off. -/
def idleCtrl (v : Variant) (m : Nat) : CtrlLine → CtrlState
  | .oe => .oeOff
  | .ce => if v = .full ∧ 6 ≤ m then .ceSelected else .ceDeselected
  | .we => .weInactive

/-- R112: the wires at main-flow step `m` while output-enable is off. It is what `WiringInv` asks of a block that is
not armed (`WiringInv.idle`, `IdleWires.wiringInv`). -/
structure IdleWires (m : Nat) (s : State) : Prop where
  modes  : ∀ B, ∀ l ∈ busLines s.cfg B, modeOf s l = some (stepMode s.cfg m B)
  levels : 4 ≤ m → ∀ c, latchOf s (ctrlLineOf s.cfg c) = some (levelBit s.cfg (idleCtrl s.cfg.variant m c))

/-- R112: output-enable is enabled at phase 1 of the running FULL variant only. -/
theorem WiringInv.oeOff (h : WiringInv s) (hm : 4 ≤ s.ms.val)
    (hn : ¬ (s.armed = true ∧ s.cfg.variant = .full ∧ s.tc % 4 = 1)) :
    latchOf s s.cfg.oeLine = some (levelBit s.cfg .oeOff) := by
  rcases h.oeLevel hm with off | ⟨ha, hv, hp, _⟩
  · exact off
  · exact absurd ⟨ha, hv, hp⟩ hn

theorem WiringInv.idle (h : WiringInv s) (ha : s.armed = false) : IdleWires s.ms.val s where
  modes
    | .addr => h.addrModes
    | .data => h.dataFloating
    | .ctrl => h.ctrlModes
  levels hm
    | .oe => h.oeOff hm (by simp [ha])
    | .ce => h.ceLevel hm
    | .we => h.weInactive hm

/-- At counter 0 the Address Bus may still show anything. -/
theorem IdleWires.wiringInv (h : IdleWires t.ms.val t) (h0 : t.armed = true → t.tc = 0) : WiringInv t where
  dataFloating := h.modes .data
  addrModes    := h.modes .addr
  ctrlModes    := h.modes .ctrl
  weInactive   := fun hm => h.levels hm .we
  ceLevel      := fun hm => h.levels hm .ce
  oeLevel      := fun hm => .inl (h.levels hm .oe)
  address ha _ := by simp [addressAsDecoded, h0 ha]

theorem IdleWires.congr (h : IdleWires m s) (hc : t.cfg = s.cfg) (hl : t.lines = s.lines) : IdleWires m t where
  modes  := by simpa only [hc, modeOf_congr hl] using h.modes
  levels := by simpa only [hc, latchOf_congr hl] using h.levels

/-- R136, R142 to R146: from the assertion of chip-enable on the wires stay as they are. -/
theorem IdleWires.later (h : IdleWires m s) (hm : 6 ≤ m) (hn : 6 ≤ n) : IdleWires n s where
  modes B l hl := by
    rw [h.modes B l hl]
    cases B <;> simp [stepMode, show 2 ≤ m by omega, show 2 ≤ n by omega, show 5 ≤ m by omega, show 5 ≤ n by omega]
  levels _ c := by
    rw [h.levels (by omega) c]
    cases c <;> simp [idleCtrl, hm, hn]

/-- R137, R138, R140: configuring a bus moves on to a step that differs in the modes of that bus only. -/
theorem IdleWires.configure (h : IdleWires m s) (hw : Wired s) (B : BusId)
    (hother : ∀ C ≠ B, stepMode s.cfg n C = stepMode s.cfg m C)
    (hlevels : 4 ≤ n → 4 ≤ m ∧ ∀ c, idleCtrl s.cfg.variant n c = idleCtrl s.cfg.variant m c) :
    IdleWires n (configureBus (stepMode s.cfg n B) (busLines s.cfg B) s) where
  modes C l hl := by
    rw [configureBus_cfg] at hl ⊢
    rw [modeOf_configureBus_of_wired hw]
    by_cases hC : C = B
    · subst hC; rw [if_pos hl]
    · rw [if_neg (hw.apart.not_mem_of_ne hC hl), h.modes C l hl, hother C hC]
  levels hn c := by
    obtain ⟨hm, same⟩ := hlevels hn
    rw [latchOf_configureBus, configureBus_cfg, h.levels hm c, same c]

/-! ### The steps of bring-up that touch the wires -/

/-- R137: the Address Bus becomes an output, before any level is set. -/
theorem IdleWires.cfgAddr (h : IdleWires 1 s) (hw : Wired s) :
    IdleWires 2 (configureBus ⟨.output, s.cfg.addrEconf⟩ s.cfg.addrBus s) :=
  h.configure hw .addr (fun | .addr, hne => absurd rfl hne | .data, _ | .ctrl, _ => rfl) (by simp)

/-- R138: the Data Bus is a floating input already. -/
theorem IdleWires.cfgData (h : IdleWires 2 s) (hw : Wired s) :
    IdleWires 3 (configureBus ⟨.input, .floating⟩ s.cfg.dataBus s) :=
  h.configure hw .data (fun | .data, hne => absurd rfl hne | .addr, _ | .ctrl, _ => rfl) (by simp)

/-- R139: each control line gets its inactive level. -/
theorem IdleWires.ctrlLevels (h : IdleWires 3 s) (hw : Wired s) :
    IdleWires 4 (driveCtrl .weInactive (driveCtrl .ceDeselected (driveCtrl .oeOff s))) where
  modes B l hl := by
    simp only [modeOf_driveCtrl]
    exact (h.modes B l hl).trans (by cases B <;> rfl)
  levels _ c := by
    have hoe := driveCtrl_wired hw .oeOff
    have hce := driveCtrl_wired hoe .ceDeselected
    calc latchOf (driveCtrl .weInactive (driveCtrl .ceDeselected (driveCtrl .oeOff s))) (ctrlLineOf s.cfg c)
      _ = if .we = c then some (levelBit s.cfg .weInactive)
          else latchOf (driveCtrl .ceDeselected (driveCtrl .oeOff s)) (ctrlLineOf s.cfg c) :=
        hce.latchOf_driveCtrl .weInactive c
      _ = if .we = c then some (levelBit s.cfg .weInactive)
          else if .ce = c then some (levelBit s.cfg .ceDeselected)
          else latchOf (driveCtrl .oeOff s) (ctrlLineOf s.cfg c) :=
        congrArg _ (hoe.latchOf_driveCtrl .ceDeselected c)
      _ = some (levelBit s.cfg (idleCtrl s.cfg.variant 4 c)) := by
        rw [hw.latchOf_driveCtrl .oeOff c]
        cases c <;> simp [idleCtrl, CtrlState.owner]

/-- R140: the control lines become open-drain outputs that hold the levels set before. -/
theorem IdleWires.cfgCtrl (h : IdleWires 4 s) (hw : Wired s) :
    IdleWires 5 (configureBus ⟨.output, .openDrain⟩ s.cfg.ctrlBus s) :=
  h.configure hw .ctrl (fun | .ctrl, hne => absurd rfl hne | .addr, _ | .data, _ => rfl) (by simp [idleCtrl])

/-- R141, R147: chip-enable is asserted in the FULL variant; in the REDUCED variant it stays deselected. -/
theorem IdleWires.ceAssert (h : IdleWires 5 s) (hw : Wired s) :
    IdleWires 6 (fullOnly s (driveCtrl .ceSelected s) s) := by
  have before := h.levels (by decide)
  unfold fullOnly
  split
  · next hv =>
    refine ⟨fun B l hl => ?_, fun _ c => ?_⟩
    · rw [modeOf_driveCtrl]
      exact (h.modes B l hl).trans (by cases B <;> rfl)
    · rw [driveCtrl_cfg, hw.latchOf_driveCtrl, before c]
      cases c <;> simp [idleCtrl, CtrlState.owner, hv]
  · next hv =>
    refine ⟨fun B l hl => (h.modes B l hl).trans (by cases B <;> rfl), fun _ c => (before c).trans ?_⟩
    cases c <;> simp [idleCtrl, hv]

/-- R144, R147: the start wait leaves the wires alone and stays past the assertion of chip-enable. -/
theorem startWait_frame (hs : s.ms = 8) (ht : fullOnly s (waitStart s) (goTo 9 s) = t) :
    t.cfg = s.cfg ∧ t.lines = s.lines ∧ 6 ≤ t.ms.val := by
  subst ht
  rcases fullOnly_cases s (waitStart s) (goTo 9 s) with e | e <;> rw [e]
  · rcases waitStart_cases s with ⟨_, e⟩ | ⟨_, _, e⟩ | ⟨_, _, _, _, e⟩ <;> rw [e] <;> simp [hs]
  · simp

/-- R135 to R147: every step of the main flow leaves the wires of the step it moves on to. -/
theorem IdleWires.of_mainStep (h : IdleWires s.ms.val s) (hw : Wired s) (he : exec (mainInstr s) s = .next t) :
    IdleWires t.ms.val t := by
  rcases mainInstr_cases s with ⟨hm, e⟩ | ⟨hm, e⟩ | ⟨hm, e⟩ | ⟨hm, e⟩ | ⟨hm, e⟩ | ⟨hm, e⟩ | ⟨hm, e⟩ | ⟨hm, e⟩ | ⟨hm, e⟩ |
    ⟨hm, e⟩ | ⟨hm, e⟩ <;> rw [e] at he <;> rw [hm] at h
  · cases he; exact ⟨h.modes, by simp⟩
  · cases he; exact (h.cfgAddr hw).congr rfl rfl
  · cases he; exact (h.cfgData hw).congr rfl rfl
  · cases he; exact (h.ctrlLevels hw).congr rfl rfl
  · cases he; exact (h.cfgCtrl hw).congr rfl rfl
  · cases he; exact (h.ceAssert hw).congr rfl rfl
  · cases he; exact (h.later (n := 7) (by decide) (by decide)).congr rfl rfl
  · cases he; exact (h.later (n := 8) (by decide) (by decide)).congr rfl rfl
  · obtain ⟨hc, hl, ht⟩ := startWait_frame hm (Host.Outcome.next.inj he)
    exact (h.later (by decide) ht).congr hc hl
  · cases he; exact (h.later (n := 10) (by decide) (by decide)).congr rfl rfl
  · cases he; rwa [hm]

/-- R145: a move of the main flow that leaves the block armed, but was not armed before, leaves counter 0. -/
theorem FlowInv.counter_at_arming (hs : FlowInv s) (ha : s.armed = false) (h : MainMove s t) :
    t.armed = true → t.tc = 0 := by
  cases h with
  | wires | start | halt => exact fun ht => absurd (ha.symm.trans ht) (by decide)
  | counter => exact fun _ => rfl
  | arm hm => exact fun _ => hs.zeroAtArming (by simp [hm]) ha

theorem WiringInv.of_mainStep (hi : BlockInv s) (h : exec (mainInstr s) s = .next t) : WiringInv t := by
  by_cases ha : s.armed = true
  · obtain rfl : t = s := (mainInstr_frame h).2 (hi.flow.armedAtHalt.1 ha)
    exact hi.wiring
  · have unarmed : s.armed = false := Bool.eq_false_iff.2 ha
    exact ((hi.wiring.idle unarmed).of_mainStep hi.wired h).wiringInv
      (hi.flow.counter_at_arming unarmed (mainMove h))

/-! ### What a tick does to the wires -/

/-- R112: what a tick keeps, so that only output-enable and the Address Bus can show that it came. -/
structure TickFrame (s t : State) : Prop where
  cfg     : t.cfg = s.cfg
  ms      : t.ms = s.ms
  armed   : t.armed = s.armed
  modes   : SameModes s t
  latches : OtherLatches (s.cfg.oeLine :: s.cfg.addrBus) s t

/-- R9 (e): a control line other than output-enable is off the Lines that a tick drives. -/
theorem Wired.ctrl_not_driven (hw : Wired s) {c : CtrlLine} (hc : c ≠ .oe) :
    ctrlLineOf s.cfg c ∉ s.cfg.oeLine :: s.cfg.addrBus :=
  List.not_mem_cons_of_ne_of_not_mem (hw.apart.ctrlLineOf_injective.ne hc)
    fun h => hw.apart.addr_ctrl _ h (ctrlLineOf_mem s.cfg c)

/-- R112: within the frame of a tick only output-enable and the Address Bus are left to look at. -/
theorem WiringInv.of_tickFrame (hs : WiringInv s) (hw : Wired s) (hf : TickFrame s t) (hoe : oeAsDecoded t)
    (haddr : s.cfg.variant = .full → addressAsDecoded t) : WiringInv t where
  dataFloating l hl := by rw [hf.cfg] at hl; rw [hf.modes l, hs.dataFloating l hl]
  addrModes l hl    := by rw [hf.cfg] at hl ⊢; rw [hf.ms, hf.modes l, hs.addrModes l hl]
  ctrlModes l hl    := by rw [hf.cfg] at hl; rw [hf.ms, hf.modes l, hs.ctrlModes l hl]
  weInactive hm     := by
    rw [hf.ms] at hm
    rw [hf.cfg]
    exact (hf.latches _ (hw.ctrl_not_driven (c := .we) (by decide))).trans (hs.weInactive hm)
  ceLevel hm        := by
    rw [hf.ms] at hm
    rw [hf.cfg, hf.ms]
    exact (hf.latches _ (hw.ctrl_not_driven (c := .ce) (by decide))).trans (hs.ceLevel hm)
  oeLevel _         := hoe
  address _ hv      := haddr (hf.cfg ▸ hv)

/-- R94: driving the Address Bus shows the address, keeps every mode and leaves the other latches. -/
theorem writtenAddr_spec (hw : Wired s) (a : Nat) (hl : t.lines = (writeBus s.cfg.addrBus a s).lines) :
    latchValue t s.cfg.addrBus = a % 2 ^ s.cfg.aw ∧ OtherLatches s.cfg.addrBus s t ∧ SameModes s t := by
  refine ⟨?_, fun l hn => (latchOf_congr hl l).trans (latchOf_writeBus_ne a s hn), fun l => ?_⟩
  · rw [latchValue_congr fun l _ => latchOf_congr hl l, writeAddr_spec hw]
  · rw [modeOf_congr hl, modeOf_writeBus]

/-- Everything an invocation of the FULL handler does to the Line table and the counter (R101 to R105, R108);
`tickWires` ties it to the dispatch. -/
inductive TickWires (s t : State) : Prop where
  /-- R101, R104, R105: the terminal condition, or phase 2 or 3 refused. -/
  | kept (hl : t.lines = s.lines) (htc : t.tc = s.tc)
  /-- R102: phase 0. -/
  | opened (ha : s.tc / 4 < 2 ^ s.cfg.aw) (hp : s.tc % 4 = 0) (htc : t.tc = s.tc + 1)
      (hl : t.lines = (driveCtrl .oeRead (writeBus s.cfg.addrBus (s.tc / 4) s)).lines)
  /-- R102, R108: phase 0 with its separator refused. -/
  | addressed (ha : s.tc / 4 < 2 ^ s.cfg.aw) (htc : t.tc = s.tc)
      (hl : t.lines = (writeBus s.cfg.addrBus (s.tc / 4) s).lines)
  /-- R103, R108: phase 1, accepted or refused. -/
  | closed (hp : s.tc % 4 = 1) (htc : t.tc = s.tc + 1 ∨ t.tc = s.tc) (hl : t.lines = (driveCtrl .oeOff s).lines)
  /-- R104, R105: phase 2 or 3. -/
  | sent (hp : s.tc % 4 = 2 ∨ s.tc % 4 = 3) (htc : t.tc = s.tc + 1) (hl : t.lines = s.lines)

theorem tickWires (hw : Wired s) (hd : DataInputs s) (hv : s.cfg.variant = .full) (h : dispatchTick s = .next t) :
    TickWires s t := by
  rcases handler_cases hw hd hv h with rfl | ⟨ha, hp, _, rfl⟩ | ⟨ha, hp, _, rfl⟩ | ⟨ha, _, rfl⟩ |
    ⟨_, hp, _, _, _, _, rfl⟩ | ⟨_, hp, _, _, rfl⟩ | ⟨_, hp, _, _, rfl⟩
  · exact .kept rfl rfl
  · exact .opened ha hp rfl rfl
  · exact .opened ha hp rfl rfl
  · exact .addressed ha rfl rfl
  · exact .closed hp (.inl rfl) rfl
  · exact .closed hp (.inr rfl) rfl
  · exact .sent hp rfl rfl

/-- R102 to R105: an invocation writes no mode, and no latch but output-enable's and the Address Bus's. -/
theorem TickWires.frame (h : TickWires s t) (hw : Wired s) :
    SameModes s t ∧ OtherLatches (s.cfg.oeLine :: s.cfg.addrBus) s t := by
  cases h with
  | kept hl | sent _ _ hl => exact ⟨modeOf_congr hl, fun l _ => latchOf_congr hl l⟩
  | opened _ _ _ hl =>
    obtain ⟨_, _, others, modes⟩ := drivenEnabled_spec hw _ t hl
    exact ⟨modes, others⟩
  | addressed _ _ hl =>
    obtain ⟨_, others, modes⟩ := writtenAddr_spec hw _ hl
    exact ⟨modes, fun l hn => others l fun h => hn (List.mem_cons_of_mem _ h)⟩
  | closed _ _ hl =>
    obtain ⟨_, others, modes⟩ := oeOff_spec hw t hl
    exact ⟨modes, fun l hn => others l fun h => hn (List.mem_singleton.1 h ▸ List.mem_cons_self)⟩

theorem dispatchTick_frame (hw : Wired s) (hd : DataInputs s) (hv : s.cfg.variant = .full)
    (h : dispatchTick s = .next t) : TickFrame s t := by
  obtain ⟨modes, latches⟩ := (tickWires hw hd hv h).frame hw
  have move := handlerMove hw hd hv h
  exact ⟨move.cfg, move.ms, move.armed, modes, latches⟩

/-- R112: the counter and the output-enable latch as they were, output-enable is as decoded. -/
theorem oeAsDecoded_of_kept (hs : oeAsDecoded s) (hc : t.cfg = s.cfg) (ha : t.armed = s.armed) (htc : t.tc = s.tc)
    (hl : latchOf t s.cfg.oeLine = latchOf s s.cfg.oeLine) : oeAsDecoded t := by
  rwa [oeAsDecoded, hc, ha, htc, hl]

/-- R112: phase 0 enables the outputs for phase 1, phase 1 disables them, and nothing else touches them. -/
theorem TickWires.oe_asDecoded (h : TickWires s t) (hw : Wired s) (hf : TickFrame s t) (ha : s.armed = true)
    (hv : s.cfg.variant = .full) (hs : WiringInv s) (hm : 4 ≤ s.ms.val) : oeAsDecoded t := by
  cases h with
  | kept hl htc => exact oeAsDecoded_of_kept (hs.oeLevel hm) hf.cfg hf.armed htc (latchOf_congr hl _)
  | opened _ hp htc hl =>
    obtain ⟨_, enabled, _⟩ := drivenEnabled_spec hw _ t hl
    refine .inr ⟨hf.armed.trans ha, by rwa [hf.cfg], by omega, by rwa [hf.cfg]⟩
  | addressed _ htc hl =>
    obtain ⟨_, others, _⟩ := writtenAddr_spec hw _ hl
    exact oeAsDecoded_of_kept (hs.oeLevel hm) hf.cfg hf.armed htc (others _ hw.oe_not_addr)
  | closed _ _ hl =>
    obtain ⟨disabled, _⟩ := oeOff_spec hw t hl
    exact .inl (by rwa [hf.cfg])
  | sent hp _ hl =>
    have off := hs.oeOff hm fun ⟨_, _, h1⟩ => by omega
    exact .inl (by rw [hf.cfg, latchOf_congr hl, off])

/-- R112: the Address Bus shows the current address. -/
theorem addressAsDecoded_of_current (h : latchValue t t.cfg.addrBus = t.tc / 4) : addressAsDecoded t :=
  ⟨fun _ => h, fun _ _ => .inr h⟩

/-- R112: the counter and the Line table as they were, the Address Bus is as decoded. -/
theorem addressAsDecoded_of_kept (hs : addressAsDecoded s) (hc : t.cfg = s.cfg) (hl : t.lines = s.lines)
    (htc : t.tc = s.tc) : addressAsDecoded t := by
  rwa [addressAsDecoded, hc, htc, latchValue_congr fun l _ => latchOf_congr hl l]

/-- R112: phase 0 drives the current address, and the bus holds it until the next phase 0. -/
theorem TickWires.address_asDecoded (h : TickWires s t) (hw : Wired s) (hc : t.cfg = s.cfg)
    (hs : addressAsDecoded s) : addressAsDecoded t := by
  have current := hs.1
  cases h with
  | kept hl htc => exact addressAsDecoded_of_kept hs hc hl htc
  | opened ha hp htc hl =>
    obtain ⟨driven, _⟩ := drivenEnabled_spec hw _ t hl
    refine addressAsDecoded_of_current ?_
    rw [hc, driven, Nat.mod_eq_of_lt ha]
    omega
  | addressed ha htc hl =>
    obtain ⟨driven, _⟩ := writtenAddr_spec hw _ hl
    refine addressAsDecoded_of_current ?_
    rw [hc, driven, Nat.mod_eq_of_lt ha, htc]
  | closed hp htc hl =>
    obtain ⟨_, others, _⟩ := oeOff_spec hw t hl
    have held : latchValue t s.cfg.addrBus = latchValue s s.cfg.addrBus :=
      latchValue_congr fun l hl => others l fun h => hw.oe_not_addr (List.mem_singleton.1 h ▸ hl)
    refine addressAsDecoded_of_current ?_
    rw [hc, held, current (by omega)]
    omega
  | sent hp htc hl =>
    have held : latchValue t s.cfg.addrBus = s.tc / 4 := by
      rw [latchValue_congr fun l _ => latchOf_congr hl l, current (by omega)]
    refine ⟨fun _ => ?_, fun _ _ => .inl ?_⟩ <;> rw [hc, held] <;> omega

/-- R112, R120: a serviced tick keeps the wires as tabulated. -/
theorem WiringInv.of_tick (hi : BlockInv s) (h : execTimerTick s = .next t) : WiringInv t := by
  have hw := hi.wired
  rcases tick_cases h with ⟨_, rfl⟩ | ⟨ha, hv, rfl⟩ | ⟨ha, hv, hd⟩
  · exact hi.wiring
  · obtain ⟨_, others, modes⟩ := writtenAddr_spec (t := advance (writeBus s.cfg.addrBus s.tc s)) hw s.tc rfl
    have frame : TickFrame s (advance (writeBus s.cfg.addrBus s.tc s)) :=
      ⟨by simp, by simp, by simp, modes, fun l hn => others l fun h => hn (List.mem_cons_of_mem _ h)⟩
    have off := hi.wiring.oeOff (by simp [hi.flow.armedAtHalt.1 ha]) (by simp [hv])
    refine hi.wiring.of_tickFrame hw frame (.inl ?_) (by simp [hv])
    rw [frame.cfg, others _ hw.oe_not_addr, off]
  · have wires := tickWires hw hi.dataInputs hv hd
    have frame := dispatchTick_frame hw hi.dataInputs hv hd
    exact hi.wiring.of_tickFrame hw frame
      (wires.oe_asDecoded hw frame ha hv hi.wiring (by simp [hi.flow.armedAtHalt.1 ha]))
      fun _ => wires.address_asDecoded hw frame.cfg (hi.wiring.address ha hv)

/-! ### Every step -/

/-- R34, R36: the holding register and the receive queue are not wires. -/
theorem WiringInv.withQueues (h : WiringInv s) (r : Option Byte) (q : List Byte) :
    WiringInv { s with hr := r, rxq := q } where
  dataFloating  := h.dataFloating
  addrModes     := h.addrModes
  ctrlModes     := h.ctrlModes
  weInactive    := h.weInactive
  ceLevel       := h.ceLevel
  oeLevel       := h.oeLevel
  address ha hv := addressAsDecoded_of_kept (h.address ha hv) rfl rfl rfl

/-- R39, R180: after the reset event every Line of the table is a floating input. -/
theorem idleWires_hardReset (hw : Wired s) : IdleWires 0 (hardReset s) where
  modes B l hl := by
    obtain ⟨md, hm⟩ := hasLine_iff_mode.1 (hw.hasBus B l hl)
    rw [modeOf_hardReset, hm]
    cases B <;> rfl
  levels hm := absurd hm (by decide)

theorem WiringInv.of_step (hi : BlockInv s) (h : step s = .next t) : WiringInv t := by
  have hp := popStim_inv hi
  rcases step_cases h with h | h | rfl | ⟨_, rfl⟩ | rfl
  · exact .of_mainStep hp h
  · exact .of_tick hp h
  · exact hp.wiring.withQueues none _
  · exact hp.wiring.withQueues _ _
  · exact (idleWires_hardReset hp.wired).wiringInv nofun

end Sys2Proof.Machine

/-! ### The statement -/

namespace Sys2Proof.Proofs

open Sys2Proof.Machine

/-- Settles O57, by what each agent's move does to the wires. -/
theorem stepKeepsTheWiring : Obligations.StepKeepsTheWiring := fun _ _ => WiringInv.of_step

end Sys2Proof.Proofs

/-! SUPPORT. The Phase Sequencer (R100 to R109): what each phase answers when it is executed, that one invocation sends
at most one byte and advances at most once, and the ticks that a busy relay refuses. -/

namespace Sys2Proof.Machine

variable {s t u : State} {i : Instr} {a : Nat} {b c : Byte}

/-! ### The phases executed -/

/-- R72, R102: the two operations of phase 0 agree on a block-first address. -/
theorem exec_phase0_blockFirst (s : State) (hi : i = .seqP0NL a ∨ (i = .seqP0 a ∧ a % 16 = 0)) :
    exec i s = .next (phase0 true a s) := by
  rcases hi with rfl | ⟨rfl, ha⟩
  · rfl
  · simp [exec, execSeqP0, blockFirst, ha]

/-- R72, R102: at any other address phase 0 sends no separator. -/
theorem exec_phase0_silent (s : State) (ha : a % 16 ≠ 0) : exec (.seqP0 a) s = .next (phase0 false a s) := by
  simp [exec, execSeqP0, blockFirst, ha]

/-- R102, R108: a refused separator leaves what driving the address did. -/
theorem phase0_refused_eq (a : Nat) (hr : s.hr = some c) : phase0 true a s = writeBus s.cfg.addrBus a s :=
  (phase0_refused a hr).trans (writeBus_eq _ _ s).symm

theorem phase1Emit_lines (s : State) : (phase1Emit s).lines = (driveCtrl .oeOff s).lines := by
  rcases Option.eq_none_or_eq_some s.hr with hr | ⟨c, hr⟩
  · rw [phase1Emit_accepted hr]
  · rw [phase1Emit_refused hr]

/-- R103: whatever the relay holds, phase 1 takes the sample and switches output-enable off. -/
theorem exec_phase1 (hw : Wired s) (hd : DataInputs s) (a : Nat) :
    ∃ v k t, t = phase1Emit { s with draws := s.draws + k, sb := BitVec.ofNat 8 v } ∧ exec (.seqP1 a) s = .next t ∧
      v < 2 ^ s.cfg.dw ∧
      (driving s = true → k = 0 ∧ v = (memRead s.mem (latchValue s s.cfg.addrBus)).toNat % 2 ^ s.cfg.dw) ∧
      latchOf t s.cfg.oeLine = some (levelBit s.cfg .oeOff) ∧ OtherLatches [s.cfg.oeLine] s t ∧ SameModes s t := by
  obtain ⟨v, k, hread, hv, cell⟩ := sample_cases hw hd
  exact ⟨v, k, _, rfl, execSeqP1_of_read a hread, hv, cell, oeOff_spec hw _ (phase1Emit_lines _)⟩

/-- R72, R105: both operations of phase 3 offer the separator. -/
theorem exec_phase3 (s : State)
    (hi : (i = .seqP3 a ∧ b = if a % 16 = 15 then 0x0D else 0x20) ∨ (i = .seqP3CR a ∧ b = 0x0D)) :
    exec i s = .next (offer b s advance) := by
  rcases hi with ⟨rfl, rfl⟩ | ⟨rfl, rfl⟩
  · simp [exec, execSeqP3, separator, blockLast, codeCr, codeSp]
  · rfl

/-- R100, R73: an armed SEQ.TICK runs the operation the counter decodes to. -/
theorem execSeqTick_decoded (ha : s.armed = true) (h : s.tc / 4 ≤ 2 ^ s.cfg.aw) :
    execSeqTick s = exec (decodeTcFull s.cfg s.tc) s :=
  (execSeqTick_armed ha).trans (dispatchTick_decoded h)

/-- R28: the terminal condition, read off the counter. -/
theorem terminal_iff : terminal s = true ↔ s.cfg.variant = .full ∧ s.tc / 4 = 2 ^ s.cfg.aw := by
  cases hv : s.cfg.variant <;> simp [terminal, addrOf, ppa, hv]

/-! ### One invocation -/

/-- R106, R107: everything one invocation can do to the counter and the log. -/
inductive Invocation (s t : State) : Prop where
  /-- R101, R108: the terminal condition, or a refused byte. -/
  | idle (htc : t.tc = s.tc) (hlog : t.txlog = s.txlog)
  /-- R102, R120: a phase that offers no byte. -/
  | silent (htc : t.tc = (s.tc + 1) % 2 ^ s.cfg.cw) (hlog : t.txlog = s.txlog)
  /-- R102 to R105: an accepted byte. -/
  | sent (b : Byte) (hr : s.hr = none) (htc : t.tc = (s.tc + 1) % 2 ^ s.cfg.cw) (hlog : t.txlog = s.txlog ++ [b])

theorem Invocation.of_next (h : Invocation s u) (ht : (.next u : Outcome State) = .next t) : Invocation s t :=
  Host.Outcome.next.inj ht ▸ h

theorem phase0_invocation (nl : Bool) (a : Nat) (s : State) : Invocation s (phase0 nl a s) := by
  cases nl
  · rw [phase0_silent]; exact .silent rfl rfl
  · cases hr : s.hr with
    | none => rw [phase0_accepted a hr]; exact .sent codeNl hr rfl rfl
    | some c => rw [phase0_refused a hr]; exact .idle rfl rfl

theorem offer_invocation (b : Byte) (s : State) : Invocation s (offer b s advance) := by
  rcases offer_advance_cases (s := s) b with ⟨hr, e⟩ | ⟨_, _, e⟩ <;> rw [e]
  · exact .sent b hr rfl rfl
  · exact .idle rfl rfl

/-- R103: sampling and switching output-enable off leave the counter, the log and the register to the offer. -/
theorem execSeqP1_invocation (h : execSeqP1 a s = .next t) : Invocation s t := by
  obtain ⟨⟨v, u⟩, hread, h⟩ := andThen_eq_next h
  obtain ⟨k, rfl⟩ := readBus_eq_next hread
  refine Invocation.of_next ?_ h
  rcases Option.eq_none_or_eq_some s.hr with hr | ⟨c, hr⟩
  · rw [phase1Emit_accepted (by exact hr)]; exact .sent _ hr rfl rfl
  · rw [phase1Emit_refused (c := c) (by exact hr)]; exact .idle rfl rfl

theorem execRseqP0_invocation (h : execRseqP0 s = .next t) : Invocation s t := by
  unfold execRseqP0 at h
  split at h
  · cases h; exact .silent (by simp [advance]) (by simp)
  · cases h; exact .idle rfl rfl

theorem dispatchTick_invocation (h : dispatchTick s = .next t) : Invocation s t := by
  simp only [dispatchTick] at h
  split at h
  · cases h
  · split at h
    · cases h; exact .idle rfl rfl
    · split at h
      · split at h <;> exact (phase0_invocation _ _ s).of_next h
      · exact execSeqP1_invocation h
      · exact (offer_invocation _ s).of_next h
      · split at h <;> exact (offer_invocation _ s).of_next h

theorem execSeqTick_invocation (h : execSeqTick s = .next t) : Invocation s t := by
  unfold execSeqTick at h
  split at h
  · exact dispatchTick_invocation h
  · cases h; exact .idle rfl rfl

theorem execTimerTick_invocation (h : execTimerTick s = .next t) : Invocation s t := by
  rcases tick_cases h with ⟨_, rfl⟩ | ⟨ha, hv, _⟩ | ⟨_, _, hd⟩
  · exact .idle rfl rfl
  · exact execRseqP0_invocation ((timerTick_eq_rseqP0 ha hv).symm.trans h)
  · exact dispatchTick_invocation hd

/-- R106: every handler operation is one invocation. -/
theorem exec_invocation (hi : isHandlerOp i = true) (h : exec i s = .next t) : Invocation s t := by
  cases i with
  | seqTerm => cases h; exact .idle rfl rfl
  | seqP0NL a => exact (phase0_invocation true a s).of_next h
  | seqP0 a => exact (phase0_invocation (blockFirst a) a s).of_next h
  | seqP1 a => exact execSeqP1_invocation (a := a) h
  | seqP2 | seqP3CR | seqP3 => exact (offer_invocation _ s).of_next h
  | rseqP0 => exact execRseqP0_invocation h
  | seqTick => exact execSeqTick_invocation h
  | timerTick => exact execTimerTick_invocation h
  | _ => cases hi

/-! ### A busy relay -/

/-- R109: a running FULL block at a phase that offers a byte, the register holding `c`. -/
structure Backpressured (c : Byte) (s : State) : Prop where
  wired   : Wired s
  inputs  : DataInputs s
  full    : s.cfg.variant = .full
  armed   : s.armed = true
  running : s.tc / 4 < 2 ^ s.cfg.aw
  offers  : offersByte (decodeTcFull s.cfg s.tc) = true
  held    : s.hr = some c

/-- R108, R155: a tick of such a block meets COND_TX_BUSY. -/
theorem Backpressured.busy (h : Backpressured c s) : meets s .timerTick .txBusy = true := by
  simp [meets, reachesTrySend, runsDispatch, txe, h.full, h.armed, h.running, h.offers, h.held]

/-- R108: the refused tick leaves a block that the next tick finds as this one did. -/
theorem Backpressured.tick (h : Backpressured c s) :
    ∃ t, exec .timerTick s = .next t ∧ Backpressured c t ∧ t.tc = s.tc ∧ t.txlog = s.txlog := by
  obtain ⟨t, hd⟩ := dispatch_ends h.wired h.inputs h.running.le
  have runs : exec .timerTick s = .next t := (execTimerTick_armed h.armed h.full).trans hd
  obtain ⟨htc, hlog, hhr⟩ := txBusy_handled h.busy runs
  have shape := dispatchTick_sameShape hd
  have frame := dispatchTick_frame h.wired h.inputs h.full hd
  refine ⟨t, runs, ⟨h.wired.of_keys shape.cfg shape.keys, h.inputs.of_modes shape.cfg frame.modes, ?_,
    frame.armed.trans h.armed, ?_, ?_, hhr.trans h.held⟩, htc, hlog⟩
  · rw [shape.cfg]; exact h.full
  · rw [shape.cfg, htc]; exact h.running
  · rw [shape.cfg, htc]; exact h.offers

/-- R109: so any number of ticks is refused. -/
theorem Backpressured.ticks (h : Backpressured c s) (n : Nat) :
    ∃ u, repeatOp .timerTick n s = .next u ∧ Backpressured c u ∧ u.tc = s.tc ∧ u.txlog = s.txlog := by
  induction n generalizing s with
  | zero => exact ⟨s, rfl, h, rfl, rfl⟩
  | succ n ih =>
    obtain ⟨t, runs, ht, htc, hlog⟩ := h.tick
    obtain ⟨u, runs', hu, htc', hlog'⟩ := ih ht
    exact ⟨u, by rw [repeatOp, runs, andThen_next, runs'], hu, htc'.trans htc, hlog'.trans hlog⟩

/-- R72, R106: phase 0 offers a byte at a block-first address only. -/
theorem offersByte_phase0 {cfg : Config} {w : Nat} (ha : w / 4 < 2 ^ cfg.aw) (hp : w % 4 = 0) :
    offersByte (decodeTcFull cfg w) = blockFirst (w / 4) := by
  have hw : w = 4 * (w / 4) := by omega
  rw [hw, decodeTcFull_phase0 (by omega), ← hw]
  by_cases hb : w / 4 % 16 = 0 <;> simp [hb, offersByte, blockFirst]

/-- R102 to R105: a phase that offers a byte to a free register sends one. -/
theorem dispatch_free_sends (hw : Wired s) (hd : DataInputs s) (hv : s.cfg.variant = .full) (hr : s.hr = none)
    (hl : s.tc / 4 < 2 ^ s.cfg.aw) (ho : offersByte (decodeTcFull s.cfg s.tc) = true) (h : dispatchTick s = .next t) :
    t.tc = s.tc + 1 ∧ ∃ b, t.txlog = s.txlog ++ [b] := by
  have advanced : t.tc = s.tc + 1 := dispatch_free hw hd hv hr hl h
  refine ⟨advanced, ?_⟩
  rcases handler_cases hw hd hv h with rfl | ⟨_, hp, hb, rfl⟩ | ⟨_, _, _, rfl⟩ | ⟨_, _, rfl⟩ |
    ⟨_, _, _, _, b, _, rfl⟩ | ⟨_, _, _, _, rfl⟩ | ⟨_, _, b, _, rfl⟩
  · exact absurd advanced (by simp)
  · exact absurd (hb.symm.trans ((offersByte_phase0 hl hp).symm.trans ho)) (by decide)
  · exact ⟨codeNl, rfl⟩
  · exact absurd advanced (by simp)
  · exact ⟨b, rfl⟩
  · exact absurd advanced (by simp)
  · exact ⟨b, rfl⟩

/-- R109: once the register is drained the next tick sends the byte and advances. -/
theorem Backpressured.drainedTick (h : Backpressured c s) :
    ∃ t b, runOps [.txdDrain, .timerTick] s = .next t ∧ t.tc = s.tc + 1 ∧ t.txlog = s.txlog ++ [b] := by
  have hw : Wired { s with hr := none } := h.wired
  have hd : DataInputs { s with hr := none } := h.inputs
  obtain ⟨t, ht⟩ := dispatch_ends hw hd h.running.le
  obtain ⟨htc, b, hlog⟩ := dispatch_free_sends hw hd h.full rfl h.running h.offers ht
  have tick : execTimerTick { s with hr := none } = .next t :=
    (execTimerTick_armed (s := { s with hr := none }) h.armed h.full).trans ht
  have run : runOps [.txdDrain, .timerTick] s = andThen (execTimerTick { s with hr := none }) (runOps []) := rfl
  exact ⟨t, b, by rw [run, tick]; rfl, htc, hlog⟩

end Sys2Proof.Machine

/-! ### The statements -/

namespace Sys2Proof.Proofs

open Sys2Proof.Machine

/-- Settles O25. -/
theorem seqTickRunsTheDecodedPhase : Obligations.SeqTickRunsTheDecodedPhase := by
  intro s hw hd ha h
  obtain ⟨t, ht⟩ := dispatch_ends hw hd h
  exact ⟨execSeqTick_decoded ha h, t, (execSeqTick_armed ha).trans ht⟩

/-- Settles O27: with no byte to offer the relay is not looked at. -/
theorem phase0WithoutSeparator : Obligations.Phase0WithoutSeparator := by
  intro s a hw ha
  obtain ⟨address, enabled, others, modes⟩ := drivenEnabled_spec hw a (phase0 false a s) (by rw [phase0_silent])
  exact ⟨_, exec_phase0_silent s ha, address, enabled, others, modes, by rw [phase0_silent]⟩

/-- Settles O28. -/
theorem phase0SeparatorAccepted : Obligations.Phase0SeparatorAccepted := by
  intro s a i hw hr hi
  obtain ⟨address, enabled, others, modes⟩ := drivenEnabled_spec hw a (phase0 true a s) (phase0_lines true a hr)
  exact ⟨_, exec_phase0_blockFirst s hi, address, enabled, others, modes, by rw [phase0_accepted a hr]; rfl⟩

/-- Settles O29: what stays done is one bus write, and writing the bus again changes nothing. -/
theorem phase0SeparatorRefused : Obligations.Phase0SeparatorRefused := by
  intro s a i c hw hr hi
  have busy : (writeBus s.cfg.addrBus a s).hr = some c := by rw [writeBus_hr, hr]
  obtain ⟨address, others, modes⟩ := writtenAddr_spec (t := writeBus s.cfg.addrBus a s) hw a rfl
  refine ⟨_, (exec_phase0_blockFirst s hi).trans (by rw [phase0_refused_eq a hr]), address, others, modes,
    writeBus_eq _ _ s, ?again⟩
  rw [exec_phase0_blockFirst _ hi, phase0_refused_eq a busy, writeBus_cfg]
  exact congrArg _ (writeBus_idem hw .addr a)

/-- Settles O30: the sample, then what `phase1Emit` does with a free register. -/
theorem phase1SamplesAndSends : Obligations.Phase1SamplesAndSends := by
  intro s a hw hd hr
  obtain ⟨v, k, t, ht, runs, hv, cell, disabled, others, modes⟩ := exec_phase1 hw hd a
  rw [phase1Emit_accepted (by exact hr)] at ht
  exact ⟨t, v, k, runs, hv, cell, disabled, others, modes, by rw [ht]⟩

/-- Settles O31: the sample, then what `phase1Emit` does with a full register. -/
theorem phase1Refused : Obligations.Phase1Refused := by
  intro s a c hw hd hr
  obtain ⟨v, k, t, ht, runs, hv, cell, disabled, others, modes⟩ := exec_phase1 hw hd a
  rw [phase1Emit_refused (c := c) (by exact hr)] at ht
  exact ⟨t, v, k, runs, hv, cell, disabled, others, modes, by rw [ht]⟩

/-- Settles O34: an operation that offers a byte to a full register meets COND_TX_BUSY; the rest is the three ways an
invocation can go. -/
theorem oneByteAndOneStepPerInvocation : Obligations.OneByteAndOneStepPerInvocation := by
  intro s t i hi h
  have refused : ∀ c, s.hr = some c → offersByte i = true → t.tc = s.tc ∧ t.txlog = s.txlog ∧ t.hr = s.hr :=
    fun c hr ho => txBusy_handled (by simp [meets, reachesTrySend, txe, hr, ho]) h
  cases exec_invocation hi h with
  | idle htc hlog => exact ⟨.inl htc, .inl hlog, refused⟩
  | silent htc hlog => exact ⟨.inr htc, .inl hlog, refused⟩
  | sent b hr htc hlog => exact ⟨.inr htc, .inr ⟨b, hlog, hr, htc⟩, refused⟩

/-- Settles O35: each refused tick leaves the block backpressured; the drain ends that. -/
theorem backpressureAdvancesOnce : Obligations.BackpressureAdvancesOnce := by
  intro s n c hw hd hv ha hl ho hr
  obtain ⟨u, refused, hu, htc, hlog⟩ := Backpressured.ticks ⟨hw, hd, hv, ha, hl, ho, hr⟩ n
  obtain ⟨t, b, accepted, htc', hlog'⟩ := hu.drainedTick
  exact ⟨u, t, b, refused, htc, hlog, hu.held, accepted, by rw [htc', htc], by rw [hlog', hlog]⟩

/-- Settles O38: the four phases of the dump's step from one address to the next. -/
theorem oneAddressContributesItsText : Obligations.OneAddressContributesItsText := by
  intro s a hw hd hs hv ha htc hlt
  obtain ⟨t, ht⟩ := Dumping.sends_cellText ⟨hw, hd, hs, hv, ha⟩ htc hlt
  exact ⟨t, ht.run, ht.log, by rw [ht.counter, htc, Nat.mul_succ]⟩

/-- Settles O26: each tick meets COND_TERMINAL, which is looked at before the relay. -/
theorem terminalTicksAreInert : Obligations.TerminalTicksAreInert := by
  refine fun s => ⟨rfl, fun ha ht => ?_⟩
  obtain ⟨hv, haddr⟩ := terminal_iff.1 ht
  have seqTick : meets s .seqTick .terminal = true := by simp [meets, runsDispatch, ha, haddr]
  have timerTick : meets s .timerTick .terminal = true := by simp [meets, runsDispatch, ha, hv, haddr]
  exact ⟨(terminal_handled seqTick).1, (terminal_handled timerTick).1⟩

/-- Settles O32. -/
theorem phase2SendsTheLowDigit : Obligations.Phase2SendsTheLowDigit :=
  fun _ _ => ⟨fun hr => congrArg _ (offer_free _ advance hr), fun c hr => congrArg _ (offer_busy _ c advance hr)⟩

/-- Settles O33. -/
theorem phase3SendsTheSeparator : Obligations.Phase3SendsTheSeparator := by
  intro s a i b hi
  rw [exec_phase3 s hi]
  exact ⟨fun hr => congrArg _ (offer_free b advance hr), fun c hr => congrArg _ (offer_busy b c advance hr)⟩

end Sys2Proof.Proofs

/-! SUPPORT. The REDUCED variant (R120 to R122, R147): what one tick does, the addresses that a row of ticks shows, and
what no step but a reset touches. -/

namespace Sys2Proof.Machine

variable {s t : State} {i : Instr}

/-! ### One tick -/

/-- R120, R156: both ways to run an invocation of the REDUCED handler drive the counter and advance it. -/
theorem exec_reducedTick (ha : s.armed = true) (hi : i = .rseqP0 ∨ (i = .timerTick ∧ s.cfg.variant = .reduced)) :
    exec i s = .next (advance (writeBus s.cfg.addrBus s.tc s)) := by
  rcases hi with rfl | ⟨rfl, hv⟩
  · simp [exec, execRseqP0, ha]
  · exact timerTick_reduced ha hv

/-- R120: driving a bus and advancing write the Line table and the counter only. -/
theorem advance_writeBus_eq (ls : List Line) (v : Nat) (s : State) :
    advance (writeBus ls v s) =
      { s with lines := (writeBus ls v s).lines, tc := (s.tc + 1) % 2 ^ s.cfg.cw } :=
  congrArg advance (writeBus_eq ls v s)

/-! ### The scan -/

/-- R9 (c): in the REDUCED variant the address is a part of the counter, so that the counter's wrap is not seen on the
Address Bus. -/
theorem mod_counter_mod_address {cfg : Config} (hl : configLegal cfg = true) (hv : cfg.variant = .reduced) (m n : Nat) :
    (m % 2 ^ cfg.cw + n) % 2 ^ cfg.aw = (m + n) % 2 ^ cfg.aw := by
  rw [Nat.add_mod, Nat.mod_mod_of_dvd m (Nat.pow_dvd_pow 2 (configLegal_reduced hl hv)), ← Nat.add_mod]

/-- R122, from any counter value: after `n + 1` ticks the bus shows the `n`-th value from there and the counter holds the
one after it. -/
theorem reducedTicks_spec (hw : Wired s) (ha : s.armed = true) (hv : s.cfg.variant = .reduced) (n : Nat) :
    ∃ t, repeatOp .timerTick (n + 1) s = .next t ∧ latchValue t s.cfg.addrBus = (s.tc + n) % 2 ^ s.cfg.aw ∧
      t.tc = (s.tc + (n + 1)) % 2 ^ s.cfg.cw := by
  induction n generalizing s with
  | zero =>
    obtain ⟨shown, _⟩ := writtenAddr_spec (t := advance (writeBus s.cfg.addrBus s.tc s)) hw s.tc rfl
    exact ⟨_, by rw [repeatOp, exec_reducedTick ha (.inr ⟨rfl, hv⟩)]; rfl, shown, by simp⟩
  | succ n ih =>
    have ticked : Wired (advance (writeBus s.cfg.addrBus s.tc s)) := hw.of_keys (by simp) (by simp)
    obtain ⟨t, run, shown, counter⟩ := ih ticked (by simpa using ha) (by simpa using hv)
    simp only [advance_cfg, advance_tc, writeBus_cfg, writeBus_tc] at shown counter
    refine ⟨t, ?run, ?shown, ?counter⟩
    case run => rw [repeatOp, exec_reducedTick ha (.inr ⟨rfl, hv⟩)]; exact run
    case shown => rw [shown, mod_counter_mod_address hw.1 hv, Nat.add_assoc, Nat.add_comm 1]
    case counter => rw [counter, Nat.mod_add_mod, Nat.add_assoc, Nat.add_comm 1]

/-! ### What no step touches -/

/-- R121: the Sampled Byte stays and, once armed, the latches of the control lines do. -/
structure ReducedFrame (s t : State) : Prop where
  sample : t.sb = s.sb
  ctrl   : s.armed = true → ∀ l ∈ s.cfg.ctrlBus, latchOf t l = latchOf s l

/-- R22: no move of the main flow writes the Sampled Byte. -/
theorem MainMove.sb (h : MainMove s t) : t.sb = s.sb := by
  cases h <;> rfl

/-- R146: an armed block is in the permanent wait, where the main flow has no effect. -/
theorem ReducedFrame.of_mainStep (hf : FlowInv s) (h : exec (mainInstr s) s = .next t) : ReducedFrame s t where
  sample := (mainMove h).sb
  ctrl ha _ _ := by
    obtain ⟨_, halted⟩ := mainInstr_frame h
    rw [halted (hf.armedAtHalt.1 ha)]

/-- R120, R121: a REDUCED tick writes the latches of the Address Bus only. -/
theorem ReducedFrame.of_tick (hw : Wired s) (hv : s.cfg.variant = .reduced) (h : execTimerTick s = .next t) :
    ReducedFrame s t := by
  rcases tick_cases h with ⟨_, rfl⟩ | ⟨_, _, rfl⟩ | ⟨_, hfull, _⟩
  · exact ⟨rfl, fun _ _ _ => rfl⟩
  · obtain ⟨_, others, _⟩ := writtenAddr_spec (t := advance (writeBus s.cfg.addrBus s.tc s)) hw s.tc rfl
    exact ⟨by simp, fun _ l hl => others l fun haddr => hw.apart.addr_ctrl l haddr hl⟩
  · exact absurd (hv.symm.trans hfull) (by decide)

/-- R82, R121: the other agents, a reset excepted, touch the queues of the serial line only. -/
theorem ReducedFrame.of_step (hi : BlockInv s) (hv : s.cfg.variant = .reduced) (hn : s.stim.head? ≠ some .rst)
    (h : step s = .next t) : ReducedFrame s t := by
  have hp := popStim_inv hi
  have kept : ReducedFrame (popStim s) t → ReducedFrame s t := fun k => ⟨k.sample, k.ctrl⟩
  obtain ⟨_, he⟩ := step_eq_next h
  rcases fetch_cases s with e | e | e | ⟨b, e⟩ | ⟨hr, _⟩
  · exact kept (.of_mainStep hp.flow (by rwa [e] at he))
  · exact kept (.of_tick hp.wired hv (by rwa [e] at he))
  · rw [e] at he; cases he; exact ⟨rfl, fun _ _ _ => rfl⟩
  · rw [e] at he; cases he; exact ⟨rfl, fun _ _ _ => rfl⟩
  · exact absurd hr hn

end Sys2Proof.Machine

/-! ### The statements -/

namespace Sys2Proof.Proofs

open Sys2Proof.Machine

/-- Settles O40: the relay's state enters nowhere. -/
theorem reducedTickDrivesTheCounter : Obligations.ReducedTickDrivesTheCounter := by
  intro s i hw ha hi
  obtain ⟨shown, others, modes⟩ := writtenAddr_spec (t := advance (writeBus s.cfg.addrBus s.tc s)) hw s.tc rfl
  exact ⟨_, exec_reducedTick ha hi, shown, others, modes, advance_writeBus_eq _ _ s⟩

/-- Settles O41, by induction on the ticks with the start value of the counter left general (`reducedTicks_spec`). -/
theorem reducedScanSequence : Obligations.ReducedScanSequence := by
  intro s K hw ha hv htc hK
  obtain ⟨n, rfl⟩ := Nat.exists_eq_succ_of_ne_zero (by omega : K ≠ 0)
  simpa [htc] using reducedTicks_spec hw ha hv n

/-- Settles O42: the output is silent by the invariant, the terminal condition speaks of FULL only, and the rest is by
what each agent's move touches. -/
theorem reducedNeverSamplesOrSends : Obligations.ReducedNeverSamplesOrSends := by
  intro s t hi hv hn h
  have reduced : t.cfg.variant = .reduced := by rw [(step_sameShape h).cfg, hv]
  have frame := ReducedFrame.of_step hi hv hn h
  exact ⟨frame.sample, (SerialInv.of_step hi h).silentReduced reduced, by simp [terminal, reduced], frame.ctrl⟩

end Sys2Proof.Proofs

/-! SUPPORT. The Serial Relay and its environment executed by name (R125, R126, R128, R129): what each operation
answers. -/

namespace Sys2Proof.Machine

variable {s : State}

/-- R125, log 8. -/
theorem exec_relayTrySend_free (b : Byte) (h : s.hr = none) :
    exec (.relayTrySend b) s =
      .next { s with hr := some b, txlog := s.txlog ++ [b], result := .accepted true } :=
  congrArg Host.Outcome.next (sendByName_free b h)

/-- R125, log 8: the refusal shows in the answer only. -/
theorem exec_relayTrySend_busy (b : Byte) {c : Byte} (h : s.hr = some c) :
    exec (.relayTrySend b) s = .next { s with result := .accepted false } :=
  congrArg Host.Outcome.next (sendByName_busy b c h)

/-- R126. -/
theorem exec_relayRecv_pending {b : Byte} {q : List Byte} (h : s.rxq = b :: q) :
    exec .relayRecv s = .next { s with rxq := q, result := .byte b } := by
  simp [exec, execRelayRecv, recv_cons h]

/-- R126, logs 11 and 21: waiting is an unchanged state. -/
theorem exec_relayRecv_waiting (h : s.rxq = []) : exec .relayRecv s = .next s := by
  simp [exec, execRelayRecv, recv_nil h]

/-- R128. -/
theorem exec_txdDrain (s : State) : exec .txdDrain s = .next { s with hr := none } := rfl

/-- R129. -/
theorem exec_rxsSend (b : Byte) (s : State) : exec (.rxsSend b) s = .next { s with rxq := s.rxq ++ [b] } := rfl

end Sys2Proof.Machine

/-! ### The statements -/

namespace Sys2Proof.Proofs

open Sys2Proof.Machine

/-- Settles O20: the register is free or full, and the relay answers accordingly. -/
theorem trySendAcceptsOrRefuses : Obligations.TrySendAcceptsOrRefuses :=
  fun _ b => ⟨exec_relayTrySend_free b, fun _ => exec_relayTrySend_busy b⟩

/-- Settles O22: the queue has an oldest byte or the main flow waits. -/
theorem recvConsumesTheOldestByte : Obligations.RecvConsumesTheOldestByte :=
  fun _ => ⟨fun _ _ => exec_relayRecv_pending, exec_relayRecv_waiting⟩

/-- Settles O23: each environment step is one update of its own field. -/
theorem environmentStepsTouchTheirOwnQueue : Obligations.EnvironmentStepsTouchTheirOwnQueue :=
  fun s b => ⟨exec_txdDrain s, exec_rxsSend b s⟩

end Sys2Proof.Proofs

/-! SUPPORT. The steps of bring-up executed by name (R136 to R147): what each operation answers, and what the steps that
touch the wires leave of them. -/

namespace Sys2Proof.Machine

variable {s : State}

/-! ### The steps that leave the wires alone -/

/-- R136, log 25. -/
theorem exec_buClocks (s : State) : exec .buClocks s = .next { s with ms := 1 } := rfl

/-- R142. -/
theorem exec_buTcInit (s : State) : exec .buTcInit s = .next { s with tc := 0, ms := 7 } := rfl

/-- R143, log 25. -/
theorem exec_buSerialCfg (s : State) : exec .buSerialCfg s = .next { s with ms := 8 } := rfl

/-- R145. -/
theorem exec_buArm (s : State) : exec .buArm s = .next { s with armed := true, ms := 10 } := rfl

/-- R146, logs 11 and 21. -/
theorem exec_buHalt (s : State) : exec .buHalt s = .next s := rfl

/-! ### The steps that differ by variant -/

theorem fullOnly_full (hv : s.cfg.variant = .full) (t u : State) : fullOnly s t u = t := by
  simp [fullOnly, hv]

theorem fullOnly_reduced (hv : s.cfg.variant = .reduced) (t u : State) : fullOnly s t u = u := by
  simp [fullOnly, hv]

/-- R141. -/
theorem exec_buCeAssert_full (hv : s.cfg.variant = .full) :
    exec .buCeAssert s = .next (goTo 6 (driveCtrl .ceSelected s)) :=
  congrArg (Host.Outcome.next <| goTo 6 ·) (fullOnly_full hv _ _)

/-- R147. -/
theorem exec_buCeAssert_reduced (hv : s.cfg.variant = .reduced) : exec .buCeAssert s = .next { s with ms := 6 } :=
  congrArg (Host.Outcome.next <| goTo 6 ·) (fullOnly_reduced hv _ _)

theorem exec_buWaitStart_full (hv : s.cfg.variant = .full) : exec .buWaitStart s = .next (waitStart s) :=
  congrArg Host.Outcome.next (fullOnly_full hv _ _)

/-- R147. -/
theorem exec_buWaitStart_reduced (hv : s.cfg.variant = .reduced) : exec .buWaitStart s = .next { s with ms := 9 } :=
  congrArg Host.Outcome.next (fullOnly_reduced hv _ _)

/-- R144: a consumed byte goes on if it is the start byte, and waits again if not. -/
theorem waitStart_pending {b : Byte} {q : List Byte} (h : s.rxq = b :: q) :
    waitStart s = { s with rxq := q, ms := if b = codeCr then 9 else 8 } := by
  rw [waitStart, recv_cons h]
  by_cases hb : b = codeCr <;> simp [hb, goTo]

/-- R144, logs 11 and 21: waiting is an unchanged state. -/
theorem waitStart_waiting (h : s.rxq = []) : waitStart s = s := by
  rw [waitStart, recv_nil h]

/-! ### The steps that configure a bus -/

/-- R93, R137, R138, R140: a step that configures a bus and moves on writes the modes of that bus and `MS` only. -/
theorem Wired.configureStep {i : Instr} {B : BusId} {md : Mode} {n : Fin 11} (hw : Wired s)
    (h : exec i s = .next (goTo n (configureBus md (busLines s.cfg B) s))) :
    ∃ t, exec i s = .next t ∧ (∀ l, modeOf t l = if l ∈ busLines s.cfg B then some md else modeOf s l) ∧
      OtherLatches [] s t ∧ t = { s with lines := t.lines, ms := n } :=
  ⟨_, h, modeOf_configureBus_of_wired hw B md, fun l _ => latchOf_configureBus md _ s l,
    congrArg (goTo n) (configureBus_eq md _ s)⟩

/-! ### The steps that set control levels -/

/-- R96: a Line off the control bus keeps its latch, whatever control state is driven. -/
theorem latchOf_driveCtrl_of_notMem (x : CtrlState) {l : Line} (hl : l ∉ s.cfg.ctrlBus) :
    latchOf (driveCtrl x s) l = latchOf s l :=
  latchOf_driveCtrl_ne x s fun e => hl (e ▸ ctrlLineOf_mem s.cfg x.owner)

/-- R139: the three inactive levels, driven in the order of the control bus; `exec_buCtrlLevels` ties it to the step. -/
def inactiveLevels (s : State) : State := driveCtrl .weInactive (driveCtrl .ceDeselected (driveCtrl .oeOff s))

theorem exec_buCtrlLevels (s : State) : exec .buCtrlLevels s = .next (goTo 4 (inactiveLevels s)) := rfl

theorem inactiveLevels_eq (s : State) : inactiveLevels s = { s with lines := (inactiveLevels s).lines } := rfl

@[simp] theorem modeOf_inactiveLevels (s : State) (l : Line) : modeOf (inactiveLevels s) l = modeOf s l := by
  simp [inactiveLevels]

theorem latchOf_inactiveLevels_of_notMem {l : Line} (hl : l ∉ s.cfg.ctrlBus) :
    latchOf (inactiveLevels s) l = latchOf s l :=
  calc latchOf (inactiveLevels s) l
    _ = latchOf (driveCtrl .ceDeselected (driveCtrl .oeOff s)) l := latchOf_driveCtrl_of_notMem .weInactive hl
    _ = latchOf (driveCtrl .oeOff s) l := latchOf_driveCtrl_of_notMem .ceDeselected hl
    _ = latchOf s l := latchOf_driveCtrl_of_notMem .oeOff hl

/-- R139: each control line keeps the inactive level it is given while the lines after it are driven. -/
theorem Wired.latchOf_inactiveLevels (hw : Wired s) :
    latchOf (inactiveLevels s) s.cfg.oeLine = some (levelBit s.cfg .oeOff) ∧
      latchOf (inactiveLevels s) s.cfg.ceLine = some (levelBit s.cfg .ceDeselected) ∧
      latchOf (inactiveLevels s) s.cfg.weLine = some (levelBit s.cfg .weInactive) := by
  have drive_oe := hw.latchOf_driveCtrl .oeOff
  have oe_driven := driveCtrl_wired hw .oeOff
  have drive_ce := oe_driven.latchOf_driveCtrl .ceDeselected
  have drive_we := (driveCtrl_wired oe_driven .ceDeselected).latchOf_driveCtrl .weInactive
  exact ⟨(drive_we .oe).trans ((drive_ce .oe).trans (drive_oe .oe)), (drive_we .ce).trans (drive_ce .ce),
    drive_we .we⟩

end Sys2Proof.Machine

/-! ### The statements -/

namespace Sys2Proof.Proofs

open Sys2Proof.Machine

/-- Settles O44: each of the two steps configures one bus and moves on. -/
theorem bringUpConfiguresTheBuses : Obligations.BringUpConfiguresTheBuses := by
  rintro s i ls md n hw (⟨rfl, rfl, rfl, rfl⟩ | ⟨rfl, rfl, rfl, rfl⟩)
  · exact hw.configureStep (B := .addr) rfl
  · exact hw.configureStep (B := .data) rfl

/-- Settles O45: no drive undoes an earlier one, and a drive never writes a mode. -/
theorem controlLatchesGetInactiveLevels : Obligations.ControlLatchesGetInactiveLevels := by
  intro s hw
  obtain ⟨oe_off, ce_deselected, we_inactive⟩ := hw.latchOf_inactiveLevels
  exact ⟨_, exec_buCtrlLevels s, oe_off, ce_deselected, we_inactive, fun _ => latchOf_inactiveLevels_of_notMem,
    modeOf_inactiveLevels s, congrArg (goTo 4) (inactiveLevels_eq s)⟩

/-- Settles O46: the step configures the control bus, which keeps its latches. -/
theorem controlLinesBecomeOutputs : Obligations.ControlLinesBecomeOutputs :=
  fun _ hw => hw.configureStep (B := .ctrl) rfl

/-- Settles O43: each step is one update of `MS`, or none. -/
theorem platformStepsOnlyMoveOn : Obligations.PlatformStepsOnlyMoveOn :=
  fun s => ⟨exec_buClocks s, exec_buSerialCfg s, exec_buHalt s⟩

/-- Settles O47: the chip-enable line is present, so in FULL its latch takes the level, and no other latch changes. -/
theorem chipEnableIsAssertedInFullOnly : Obligations.ChipEnableIsAssertedInFullOnly := by
  intro s hw
  refine ⟨fun hv => ⟨_, exec_buCeAssert_full hv, ?level, fun l hl => ?other, modeOf_driveCtrl .ceSelected s,
    congrArg (goTo 6) (driveCtrl_eq .ceSelected s)⟩, exec_buCeAssert_reduced⟩
  case level => exact latchOf_driveCtrl_self .ceSelected (hw.hasCtrl .ce)
  case other => exact latchOf_driveCtrl_ne .ceSelected s (List.ne_of_not_mem_cons hl)

/-- Settles O48: each step writes one field and `MS`. -/
theorem counterInitAndArming : Obligations.CounterInitAndArming :=
  fun s => ⟨exec_buTcInit s, exec_buArm s⟩

/-- Settles O49: in FULL the queue has an oldest byte, which is the start byte or not, or the main flow waits. -/
theorem startWaitTakesOneByte : Obligations.StartWaitTakesOneByte := by
  refine fun s => ⟨fun hv => ?full, exec_buWaitStart_reduced⟩
  rw [exec_buWaitStart_full hv]
  refine ⟨fun q hq => ?start, fun b q hq hb => ?malformed, fun hq => ?waiting⟩
  case start => rw [waitStart_pending hq, if_pos (show 0x0D = codeCr from rfl)]
  case malformed => rw [waitStart_pending hq, if_neg (show b ≠ codeCr from hb)]
  case waiting => rw [waitStart_waiting hq]

end Sys2Proof.Proofs

/-! SUPPORT. The timer interrupt (R12, R156, R159, R160): the three ways to invoke the handler, armed and not armed. -/

namespace Sys2Proof.Machine

variable {s : State}

/-- R12, log 11. -/
theorem execSeqTick_unarmed (h : s.armed = false) : execSeqTick s = .next s := by
  simp [execSeqTick, h]

/-- R12, log 11. -/
theorem execRseqP0_unarmed (h : s.armed = false) : execRseqP0 s = .next s := by
  simp [execRseqP0, h]

/-- R156, R159, R160: a serviced tick of the FULL variant is `SEQ.TICK`, with nothing saved or restored. -/
theorem timerTick_eq_seqTick (ha : s.armed = true) (hv : s.cfg.variant = .full) :
    execTimerTick s = execSeqTick s :=
  (execTimerTick_armed ha hv).trans (execSeqTick_armed ha).symm

/-- R193: a serviced tick ends in either variant, unless a FULL counter is beyond the terminal value. -/
theorem timerTick_ends (ha : s.armed = true) (hw : Wired s) (hd : DataInputs s)
    (h : s.cfg.variant = .reduced ∨ s.tc / 4 ≤ 2 ^ s.cfg.aw) : ∃ t, execTimerTick s = .next t := by
  cases hv : s.cfg.variant with
  | reduced => exact ⟨_, timerTick_reduced ha hv⟩
  | full =>
    have hle : s.tc / 4 ≤ 2 ^ s.cfg.aw := h.resolve_left (by simp [hv])
    obtain ⟨t, ht⟩ := dispatch_ends hw hd hle
    exact ⟨t, (execTimerTick_armed ha hv).trans ht⟩

end Sys2Proof.Machine

/-! ### The statement -/

namespace Sys2Proof.Proofs

open Sys2Proof.Machine

/-- Settles O50: not armed, each of the three invocations is inert; armed, the variant selects the handler, and the
handler ends. -/
theorem tickRunsTheHandlerWhenArmed : Obligations.TickRunsTheHandlerWhenArmed :=
  fun _ => ⟨fun h => ⟨timerTick_unarmed h, execSeqTick_unarmed h, execRseqP0_unarmed h⟩,
    timerTick_eq_seqTick, timerTick_eq_rseqP0, timerTick_ends⟩

end Sys2Proof.Proofs

/-! SUPPORT. Reset and hazards (R39, R180, R187, R193): that phase 1 leaves the device disabled, that a sample taken then
is made of draws, and that every move of every agent answers a next state. -/

namespace Sys2Proof.Machine

variable {s : State}

/-! ### The sample after a refused phase 1 -/

/-- R103, R108: emitting the high digit leaves the sample in SB, whether the relay takes the digit or not. -/
@[simp] theorem phase1Emit_sb (s : State) : (phase1Emit s).sb = s.sb := by
  rcases Option.eq_none_or_eq_some s.hr with hr | ⟨c, hr⟩
  · rw [phase1Emit_accepted hr]
  · rw [phase1Emit_refused hr]

/-- R103: phase 1 answers, and leaves the device disabled with its Data Bus readable. -/
theorem seqP1_disables (hw : Wired s) (hd : DataInputs s) (a : Nat) :
    ∃ t, exec (.seqP1 a) s = .next t ∧ Wired t ∧ DataInputs t ∧ driving t = false := by
  obtain ⟨_, _, t, _, runs, _, _, disabled, _, modes⟩ := exec_phase1 hw hd a
  have kept := exec_sameShape runs
  rw [← kept.cfg] at disabled
  exact ⟨t, runs, hw.of_keys kept.cfg kept.keys, hd.of_modes kept.cfg modes, not_driving_of_off disabled⟩

/-- R64, R103: while the device does not drive, phase 1 puts `DW` draws into SB, bit by bit. -/
theorem seqP1_undriven (hw : Wired s) (hd : DataInputs s) (hdrv : driving s = false) (a : Nat) :
    ∃ t, exec (.seqP1 a) s = .next t ∧ ∀ i < s.cfg.dw, t.sb.getLsbD i = Config.drawBit (s.draws + i) := by
  obtain ⟨v, hread, _, drawn⟩ := readBus_undriven hd hdrv
  refine ⟨_, execSeqP1_of_read a hread, fun i hi => ?_⟩
  have hi8 : i < 8 := hi.trans_le (configLegal_dw hw.1).2
  rw [configLegal_dataLength hw.1] at drawn
  rw [phase1Emit_sb, BitVec.getLsbD_ofNat, drawn i hi, decide_eq_true hi8, Bool.true_and]

/-! ### Progress -/

/-- R193, log 21: the main flow answers in every state; where it waits, by staying where it is. -/
theorem mainInstr_ends (s : State) : ∃ t, exec (mainInstr s) s = .next t := by
  rcases mainInstr_cases s with ⟨_, e⟩ | ⟨_, e⟩ | ⟨_, e⟩ | ⟨_, e⟩ | ⟨_, e⟩ | ⟨_, e⟩ | ⟨_, e⟩ | ⟨_, e⟩ | ⟨_, e⟩ |
    ⟨_, e⟩ | ⟨_, e⟩ <;> exact ⟨_, congrArg (exec · s) e⟩

/-- R193: under the invariant a tick ends: the counter of an armed FULL block is never past the terminal value. -/
theorem BlockInv.tick_ends (hi : BlockInv s) : ∃ t, execTimerTick s = .next t := by
  cases ha : s.armed with
  | false => exact ⟨s, timerTick_unarmed ha⟩
  | true =>
    refine timerTick_ends ha hi.wired hi.dataInputs ?_
    cases hv : s.cfg.variant with
    | reduced => exact .inl rfl
    | full =>
      have bound := hi.flow.neverPastTerm ha hv
      exact .inr (by omega)

end Sys2Proof.Machine

/-! ### The statements -/

namespace Sys2Proof.Proofs

open Sys2Proof.Machine

/-- Settles O36: phase 1 disables the device whatever the register holds, the drain leaves the wires alone, so the
retry samples draws. -/
theorem refusedPhase1LosesTheSample : Obligations.RefusedPhase1LosesTheSample := by
  intro s a _ hw hd _
  obtain ⟨u, attempt, wired, inputs, off⟩ := seqP1_disables hw hd a
  have drained_off : driving { u with hr := none } = false := (driving_congr rfl rfl).trans off
  obtain ⟨t, retried, drawn⟩ := seqP1_undriven (s := { u with hr := none }) wired inputs drained_off a
  have run : runOps [.txdDrain, .seqP1 a] u = andThen (exec (.seqP1 a) { u with hr := none }) (runOps []) := rfl
  have cfg : u.cfg = s.cfg := (exec_sameShape attempt).cfg
  exact ⟨u, t, attempt, off, by rw [run, andThen_runOps_nil, retried], fun i hi => drawn i (cfg ▸ hi)⟩

/-- Settles O51: the state the reset event answers, field by field; its modes and its Lines are those of
`resetLines`. -/
theorem resetEventLeavesTheResetState : Obligations.ResetEventLeavesTheResetState := by
  intro s
  have counter : (hardReset s).tc < 2 ^ s.cfg.cw := Nat.mod_lt _ (Nat.two_pow_pos _)
  have lines := keys_resetLines s.draws s.lines
  exact ⟨hardReset s, rfl, rfl, rfl, rfl, rfl, rfl, counter, modeOf_hardReset s, lines, rfl, rfl, rfl⟩

/-- Settles O58: the configuration is legal, and each of the moves that a step can select answers. -/
theorem noStepStops : Obligations.NoStepStops := by
  intro s hi
  rw [step_of_legal hi.struct.legal]
  rcases fetch_cases s with main | tick | drain | ⟨b, rx⟩ | ⟨_, reset⟩
  · rw [main]; exact mainInstr_ends (popStim s)
  · rw [tick]; exact (popStim_inv hi).tick_ends
  · rw [drain]; exact ⟨_, exec_txdDrain _⟩
  · rw [rx]; exact ⟨_, exec_rxsSend b _⟩
  · rw [reset]; exact ⟨hardReset (popStim s), rfl⟩

end Sys2Proof.Proofs
